-- ==== Sys2Proof/Word.lean ====
section
/-! DEFINITION. The word and field types of 00_scope.md rule R11: bits are numbered 15 down to 0, every value is unsigned. -/

namespace Sys2Proof

/-- The machine's native unit of storage and addressing, `XLEN = 16` bits (R9, R14). -/
abbrev Word := BitVec 16

/-- A byte of an image file; the block itself has none (R64). -/
abbrev Byte := BitVec 8

/-- A register number, the 4-bit fields `r`, `r1`, `r2` (R82, R83(d)). -/
abbrev RegIdx := BitVec 4

end Sys2Proof
end

