-- ==== Sys2Proof/Machine/Params.lean ====
section
/-! DEFINITION. The parameters whose value the spec fixes (00_scope.md R9) or decides (R10, 92_eei_decisions.md;
log entries 14 and 20). -/

namespace Sys2Proof.Machine

/-- `NREG` (R9). -/
abbrev nReg : Nat := 16

/-- `MEM_SIZE` in words (R9, D1). -/
abbrev memSize : Nat := 65536

/-- `NPORT` (R9). -/
abbrev nPort : Nat := 4

/-- `PORT_BASE = MEM_SIZE - NPORT = 0xFFFC` (R10, D3). -/
abbrev portBase : Nat := 65532

/-- `KBD_PORT` (R10, D3). -/
abbrev kbdPort : Word := 0xFFFC#16

/-- `DCMD_PORT` (R10, D3). -/
abbrev dcmdPort : Word := 0xFFFD#16

/-- `DSEC_PORT` (R10, D3). -/
abbrev dsecPort : Word := 0xFFFE#16

/-- `DDAT_PORT` (R10, D3). -/
abbrev ddatPort : Word := 0xFFFF#16

/-- The last address of the address space, where a fetch overruns (R105, D14). -/
abbrev lastAddr : Word := 0xFFFF#16

/-- `SECTOR_COUNT` (R9). -/
abbrev sectorCount : Nat := 10

/-- `SECTOR_WORDS` (R9, D5). -/
abbrev sectorWords : Nat := 1024

/-- `DISK_WORDS` (R9). -/
abbrev diskWords : Nat := 10240

/-- `VB_ROWS` (R9). -/
abbrev vbRows : Nat := 25

/-- `VB_COLS` (R9). -/
abbrev vbCols : Nat := 80

/-- `VB_CELLS` (R9). -/
abbrev vbCells : Nat := 2000

/-- `TIMER_THRESHOLD` (R9, C2). -/
abbrev timerThreshold : Word := 8000#16

/-- `CMD_IDLE` (D9). -/
abbrev cmdIdle : Word := 0#16

/-- `CMD_RESET` (D9). -/
abbrev cmdReset : Word := 1#16

/-- `CMD_READ` (D9). -/
abbrev cmdRead : Word := 2#16

/-- `CMD_WRITE` (D9). -/
abbrev cmdWrite : Word := 3#16

/-- `ST_OK` (D11). -/
abbrev stOk : Word := 0#16

/-- `ST_INVALID_SECTOR` (D11). -/
abbrev stInvalidSector : Word := 1#16

/-- `ST_UNKNOWN_COMMAND` (D11). -/
abbrev stUnknownCommand : Word := 2#16

/-- Cell `(row, col)` of the Video Buffer (R34, D4; log entry 20). -/
def vbIndex (row : Fin vbRows) (col : Fin vbCols) : Fin vbCells :=
  ⟨row * vbCols + col, by have := row.isLt; have := col.isLt; simp only [vbCells, vbRows, vbCols] at *; omega⟩

end Sys2Proof.Machine
end

