-- ==== Sys2Proof/Machine/State.lean ====
section
/-! DEFINITION. The state of NosFinal CORE (10_state.md), the causes of its end, and its value at reset. -/

namespace Sys2Proof.Machine

/-- An array of 16-bit words as plain data: (address, word) pairs. An unlisted address reads as 0 (log entry 6); the
canonical form is `Cells.wf`. The unit is the word because the machine has no smaller one (R25, R64; log entry 1). -/
abbrev Cells := List (Nat × Word)

/-- The `cause` of `Halted(cause)`, the complete list of 60_exceptions.md R170. -/
inductive HaltCause where
  /-- Normal end, by `HALT` (R135). -/
  | haltInstruction
  /-- An illegal opcode; records the instruction word (R138). -/
  | unknownInstruction (w : Word)
  /-- A register index of 16 or more; defined and unreachable (R87, R176; log entry 12). -/
  | invalidRegister (index : Nat)
  /-- A `LOD` from ROM under the switch `LOD_ROM_FAULT` (R121, R174). -/
  | romAccessViolation (a : Word)
  /-- A runtime write to ROM, from the host's `BusWrite` only (R58, R175). -/
  | protectionViolation (a : Word)
  /-- A fetch at the last address (R105). -/
  | fetchOverrun (a : Word)
  deriving DecidableEq, Repr

/-- The run state (R33). -/
inductive RunState where
  | running
  | halted (cause : HaltCause)
  deriving DecidableEq, Repr

/-- The non-fatal diagnostics (R178): an output of a cycle, not state (R37). -/
inductive Diagnostic where
  | invalidSector (dsec : Word)
  | unknownCommand (dcmd : Word)
  deriving DecidableEq, Repr

/-- The architectural state: exactly the rows of R39. -/
structure State where
  /-- General registers `x[0]` to `x[15]` (R20). -/
  x : Vector Word 16
  /-- Program counter, a word address (R22). -/
  pc : Word
  /-- Plain memory `M[0x0000 .. 0xFFFB]`, ROM region included (R25, R26). -/
  mem : Cells
  /-- Keyboard latch (R27). -/
  kbd : Option Word
  /-- Disk command register (R28). -/
  dcmd : Word
  /-- Disk sector register (R29). -/
  dsec : Word
  /-- Disk data/status register (R30). -/
  ddat : Word
  /-- Timer (R31). -/
  timer : Word
  /-- Interrupt flag (R32). -/
  iflag : Bool
  /-- Run state (R33). -/
  run : RunState
  /-- Video Buffer, 2000 cells (R34). -/
  vb : Cells
  /-- Disk, 10240 words (R35). -/
  disk : Cells
  /-- Backing store, 10240 words (R36). -/
  store : Cells
  deriving DecidableEq, Repr

/-- Faults of a step. It has no constructor: the spec describes the state every fatal condition leaves (R109, R171), so each
is a next state whose `run` is `halted`, and no state of the machine is stuck (93_implementation_defined.md section 3;
log entry 8). Nothing raises one; this is safe. -/
inductive Fault where
  deriving DecidableEq, Repr

/-- Refusals of a step. -/
inductive Refusal where
  /-- Raised by an arm of `exec` that has no meaning; no arm raises it now. Safe. -/
  | notModelled (mnemonic : String)
  deriving DecidableEq, Repr

/-- The machine at the start of the first cycle (R39, R210): construction from empty images under the reference launch
inputs, which are zero (D21; DESIGN CHOICE, unsafe: log entry 6); the values of D20 are log entry 7. -/
def State.reset : State where
  x := Vector.replicate 16 0#16
  pc := 0#16
  mem := []
  kbd := none
  dcmd := 0#16
  dsec := 0#16
  ddat := 0#16
  timer := 0#16
  iflag := false
  run := .running
  vb := []
  disk := []
  store := []

end Sys2Proof.Machine
end

