-- ==== Sys2Proof/Config.lean ====
section
/-! DEFINITION. The configuration record, fixed for the life of a machine (R38): the parameters of R10 that the spec leaves
OPEN, and the switch it keeps. A value outside a parameter's constraint is no value of its type (R10, I35). -/

namespace Sys2Proof

open Sys2Proof.Machine

/-- A machine's configuration (R10, R38). -/
structure Config where
  /-- `ROM_SIZE`, `0 <= ROM_SIZE <= PORT_BASE` (D2). -/
  romSize : Fin (portBase + 1)
  /-- `DISK_WIN_BASE`, `DISK_WIN_BASE + SECTOR_WORDS <= PORT_BASE` (D6). -/
  winBase : Fin (portBase - sectorWords + 1)
  /-- `KbdCell`: the Video Buffer cell of a serviced key, a total function of the state at service entry (D17, R183). -/
  kbdCell : State → Fin vbCells
  /-- `LOD_ROM_FAULT` (D12, R121). -/
  lodRomFault : Bool

/-- This machine's `ROM_SIZE`: OPEN, so it has no value here (D2; log entry 2). -/
opaque Config.openRomSize : Fin (portBase + 1)

/-- This machine's `DISK_WIN_BASE`: OPEN, so it has no value here (D6; log entry 3). -/
opaque Config.openWinBase : Fin (portBase - sectorWords + 1)

/-- This machine's `KbdCell`: OPEN, so nothing is known of it but that it is total (D17; log entry 4). -/
opaque Config.openKbdCell : State → Fin vbCells

end Sys2Proof
end

