-- ==== Sys2Proof/Syntax.lean ====
section
/-! DEFINITION. The instructions: one constructor per row of spec/opcode_table.json (30_encoding.md R84, R88). -/

namespace Sys2Proof

/-- The instruction as the opcode table lists it: its twelve illegal rows (R86) are twelve constructors, each holding `w[11:0]`
(DESIGN CHOICE, safe: log entry 10). The five shapes of R88 are `Shape`, and `Instr.shape` gives each instruction its shape.
Every operand at every value of its type is a legal operand, so every term is well formed. -/
inductive Instr where
  /-- `LOD r, addr8` (R120). -/
  | lod (r : RegIdx) (addr8 : BitVec 8)
  /-- `ADD r1, r2` (R125). -/
  | add (r1 r2 : RegIdx)
  /-- `JMP addr12` (R130). -/
  | jmp (addr12 : BitVec 12)
  /-- `HALT` (R135). -/
  | halt
  /-- Illegal opcode `0x0` (R138). -/
  | illegal0 (low : BitVec 12)
  /-- Illegal opcode `0x3` (R138). -/
  | illegal3 (low : BitVec 12)
  /-- Illegal opcode `0x5` (R138). -/
  | illegal5 (low : BitVec 12)
  /-- Illegal opcode `0x6` (R138). -/
  | illegal6 (low : BitVec 12)
  /-- Illegal opcode `0x7` (R138). -/
  | illegal7 (low : BitVec 12)
  /-- Illegal opcode `0x8` (R138). -/
  | illegal8 (low : BitVec 12)
  /-- Illegal opcode `0x9` (R138). -/
  | illegal9 (low : BitVec 12)
  /-- Illegal opcode `0xA` (R138). -/
  | illegalA (low : BitVec 12)
  /-- Illegal opcode `0xB` (R138). -/
  | illegalB (low : BitVec 12)
  /-- Illegal opcode `0xC` (R138). -/
  | illegalC (low : BitVec 12)
  /-- Illegal opcode `0xD` (R138). -/
  | illegalD (low : BitVec 12)
  /-- Illegal opcode `0xE` (R138). -/
  | illegalE (low : BitVec 12)
  deriving DecidableEq, Repr

end Sys2Proof
end

