-- ==== Sys2Proof/WellFormed.lean ====
section
/-! DEFINITION. The checks: a configuration before construction (R10, I35), and a line of assembler text (R90). Every term of
`Instr` is well formed by its types, so it needs no check (R87: a 4-bit field cannot hold 16 or more). -/

namespace Sys2Proof

open Sys2Proof.Machine

/-- The launch check of R10 on plain numbers: the configuration with these numbers, or nothing; outside the constraints no machine is constructed (I2, I5, I35). -/
def checkConfig (romSize winBase : Nat) (kbdCell : State → Fin vbCells) (lodRomFault : Bool) : Option Config :=
  if hr : romSize ≤ portBase then
    if hw : winBase + sectorWords ≤ portBase then
      some { romSize := ⟨romSize, Nat.lt_succ_of_le hr⟩, winBase := ⟨winBase, by simp only [portBase, sectorWords] at *; omega⟩,
             kbdCell := kbdCell, lodRomFault := lodRomFault }
    else none
  else none

/-- A line of assembler text with its operands as written, not yet checked (R90; log entry 25). -/
inductive AsmLine where
  | lod (i a : Nat)
  | add (i j : Nat)
  | jmp (a : Nat)
  | halt
  | word (w : Nat)
  deriving DecidableEq, Repr

/-- The operand ranges of R90. -/
def AsmLine.wf : AsmLine → Bool
  | .lod i a => decide (i < 16) && decide (a < 256)
  | .add i j => decide (i < 16) && decide (j < 16)
  | .jmp a => decide (a < 4096)
  | .halt => true
  | .word w => decide (w < 65536)

end Sys2Proof
end

