-- ==== Sys2Proof/Decode.lean ====
section
/-! DEFINITION. The decoder, total on all 65536 words (30_encoding.md R81 to R89), the five shapes (R88), and the encoder (R90,
R92). -/

namespace Sys2Proof

/-- `ir[15:12]`, the opcode field; it alone selects the instruction (R81). -/
def opField (ir : Word) : BitVec 4 := ir.extractLsb' 12 4

/-- `ir[11:8]`: `r` of format RA, `r1` of format RR (R82). -/
def regField1 (ir : Word) : RegIdx := ir.extractLsb' 8 4

/-- `ir[7:4]`: `r2` of format RR (R82). -/
def regField2 (ir : Word) : RegIdx := ir.extractLsb' 4 4

/-- `ir[7:0]`: `addr8` of format RA (R82). -/
def addr8Field (ir : Word) : BitVec 8 := ir.extractLsb' 0 8

/-- `ir[11:0]`: `addr12` of format J (R82), and the low bits an illegal word keeps. -/
def low12Field (ir : Word) : BitVec 12 := ir.extractLsb' 0 12

/-- `DecodeInstr` (R89): total, reads nothing but `ir`, rejects no word (R86: an illegal word is an instruction that raises
`UnknownInstruction`). The field is 4 bits wide, so the last arm is the one value `0xE`. -/
def decode (ir : Word) : Instr :=
  match (opField ir).toNat with
  | 0x0 => .illegal0 (low12Field ir)
  | 0x1 => .lod (regField1 ir) (addr8Field ir)
  | 0x2 => .add (regField1 ir) (regField2 ir)
  | 0x3 => .illegal3 (low12Field ir)
  | 0x4 => .jmp (low12Field ir)
  | 0x5 => .illegal5 (low12Field ir)
  | 0x6 => .illegal6 (low12Field ir)
  | 0x7 => .illegal7 (low12Field ir)
  | 0x8 => .illegal8 (low12Field ir)
  | 0x9 => .illegal9 (low12Field ir)
  | 0xA => .illegalA (low12Field ir)
  | 0xB => .illegalB (low12Field ir)
  | 0xC => .illegalC (low12Field ir)
  | 0xD => .illegalD (low12Field ir)
  | 0xF => .halt
  | _ => .illegalE (low12Field ir)

/-- The decoded instruction as R88 has it: exactly five constructors. -/
inductive Shape where
  /-- `LOD(r, addr8)`. -/
  | lod (r : RegIdx) (addr8 : BitVec 8)
  /-- `ADD(r1, r2)`. -/
  | add (r1 r2 : RegIdx)
  /-- `JMP(addr12)`. -/
  | jmp (addr12 : BitVec 12)
  /-- `HALT`. -/
  | halt
  /-- `ILLEGAL(w)`, with the whole word. -/
  | illegal (w : Word)
  deriving DecidableEq, Repr

/-- `DecodeInstr` in the words of R89, into the five shapes of R88. -/
def decodeInstr (ir : Word) : Shape :=
  match (opField ir).toNat with
  | 0x1 => .lod (regField1 ir) (addr8Field ir)
  | 0x2 => .add (regField1 ir) (regField2 ir)
  | 0x4 => .jmp (low12Field ir)
  | 0xF => .halt
  | _ => .illegal ir

/-- The shape of an instruction (R88): an illegal row's opcode and its low bits are the word of `ILLEGAL(w)`. -/
def Instr.shape : Instr → Shape
  | .lod r addr8 => .lod r addr8
  | .add r1 r2 => .add r1 r2
  | .jmp addr12 => .jmp addr12
  | .halt => .halt
  | .illegal0 low => .illegal (0x0#4 ++ low)
  | .illegal3 low => .illegal (0x3#4 ++ low)
  | .illegal5 low => .illegal (0x5#4 ++ low)
  | .illegal6 low => .illegal (0x6#4 ++ low)
  | .illegal7 low => .illegal (0x7#4 ++ low)
  | .illegal8 low => .illegal (0x8#4 ++ low)
  | .illegal9 low => .illegal (0x9#4 ++ low)
  | .illegalA low => .illegal (0xA#4 ++ low)
  | .illegalB low => .illegal (0xB#4 ++ low)
  | .illegalC low => .illegal (0xC#4 ++ low)
  | .illegalD low => .illegal (0xD#4 ++ low)
  | .illegalE low => .illegal (0xE#4 ++ low)

/-- The `w` of a shape `ILLEGAL(w)` (R88). -/
def Shape.illegalWord : Shape → Option Word
  | .illegal w => some w
  | .lod _ _ | .add _ _ | .jmp _ | .halt => none

/-- The `w` an illegal instruction was decoded from (R138). -/
def Instr.illegalWord (i : Instr) : Option Word := i.shape.illegalWord

/-- The decoder on an instruction given as a number, bit 0 the least significant bit of its one word (R80). -/
def decodeTableWord (nbits w : Nat) : Option Instr :=
  some (decode (BitVec.ofNat 16 (w % 2 ^ nbits)))

/-- `Encode` (R92), written from the formats of R82 and the map of R84; ignored bits are zero (R85). -/
def encode : Instr → Word
  | .lod r addr8 => 0x1#4 ++ r ++ addr8
  | .add r1 r2 => 0x2#4 ++ r1 ++ r2 ++ 0#4
  | .jmp addr12 => 0x4#4 ++ addr12
  | .halt => 0xF#4 ++ 0#12
  | .illegal0 low => 0x0#4 ++ low
  | .illegal3 low => 0x3#4 ++ low
  | .illegal5 low => 0x5#4 ++ low
  | .illegal6 low => 0x6#4 ++ low
  | .illegal7 low => 0x7#4 ++ low
  | .illegal8 low => 0x8#4 ++ low
  | .illegal9 low => 0x9#4 ++ low
  | .illegalA low => 0xA#4 ++ low
  | .illegalB low => 0xB#4 ++ low
  | .illegalC low => 0xC#4 ++ low
  | .illegalD low => 0xD#4 ++ low
  | .illegalE low => 0xE#4 ++ low

/-- The word of a row's fixed bits, `match` of R84; every row's `mask` is `0xF000`. -/
def matchWord : Instr → Word
  | .lod _ _ => 0x1000#16
  | .add _ _ => 0x2000#16
  | .jmp _ => 0x4000#16
  | .halt => 0xF000#16
  | .illegal0 _ => 0x0000#16
  | .illegal3 _ => 0x3000#16
  | .illegal5 _ => 0x5000#16
  | .illegal6 _ => 0x6000#16
  | .illegal7 _ => 0x7000#16
  | .illegal8 _ => 0x8000#16
  | .illegal9 _ => 0x9000#16
  | .illegalA _ => 0xA000#16
  | .illegalB _ => 0xB000#16
  | .illegalC _ => 0xC000#16
  | .illegalD _ => 0xD000#16
  | .illegalE _ => 0xE000#16

/-- The bits a word's instruction ignores (R85; log entry 17). -/
def ignoredBits : Instr → Word
  | .add _ _ => 0x000F#16
  | .halt => 0x0FFF#16
  | .lod _ _ | .jmp _ | .illegal0 _ | .illegal3 _ | .illegal5 _ | .illegal6 _ | .illegal7 _ | .illegal8 _ | .illegal9 _
  | .illegalA _ | .illegalB _ | .illegalC _ | .illegalD _ | .illegalE _ => 0x0000#16

/-- The word of an assembler line (R90), or nothing where an operand is out of its range. -/
def assemble (line : AsmLine) : Option Word :=
  if line.wf then
    match line with
    | .lod i a => some (encode (.lod (BitVec.ofNat 4 i) (BitVec.ofNat 8 a)))
    | .add i j => some (encode (.add (BitVec.ofNat 4 i) (BitVec.ofNat 4 j)))
    | .jmp a => some (encode (.jmp (BitVec.ofNat 12 a)))
    | .halt => some (encode .halt)
    | .word w => some (BitVec.ofNat 16 w)
  else none

end Sys2Proof
end

