-- ==== Sys2Proof/Machine/Ops.lean ====
section
/-! DEFINITION. The shared operations: word arrays, the address decoder, the runtime read and write paths, the register file's
one reader and writer, and taking a fatal fault. There is no return from a fault (R172, R184). -/

namespace Sys2Proof.Machine

/-! ### Word arrays -/

/-- The word at an address; an unlisted address reads as 0 (log entry 6). -/
def Cells.read : Cells → Nat → Word
  | [], _ => 0#16
  | (k, v) :: rest, a => if k = a then v else Cells.read rest a

/-- Without any entry at an address. -/
def Cells.erase (m : Cells) (a : Nat) : Cells := m.filter (fun e => decide (e.1 ≠ a))

/-- With an entry before the first one of a higher address. -/
def Cells.insert : Cells → Nat → Word → Cells
  | [], a, v => [(a, v)]
  | (k, w) :: rest, a, v => if a < k then (a, v) :: (k, w) :: rest else (k, w) :: Cells.insert rest a v

/-- `M[a] <- v` on an array (R13). Writing 0, what an unlisted address reads as, removes the entry. -/
def Cells.write (m : Cells) (a : Nat) (v : Word) : Cells :=
  if v = 0#16 then Cells.erase m a else Cells.insert (Cells.erase m a) a v

/-- The canonical form of an array of `bound` words: addresses strictly rising and below `bound`, no entry 0. -/
abbrev Cells.wf (bound : Nat) (m : Cells) : Prop :=
  m.Pairwise (fun e f => e.1 < f.1) ∧ ∀ e ∈ m, e.1 < bound ∧ e.2 ≠ 0

/-- The canonical form of plain memory, `M[a]` for `a` in `[0, PORT_BASE)` (R25). -/
abbrev Memory.wf (m : Cells) : Prop := Cells.wf portBase m

/-- `for k in [0, n): dst[base + k] <- src[from + k]`, in ascending order of `k` (R158, R161). -/
def Cells.copy (src : Cells) (start : Nat) (dst : Cells) (base : Nat) : Nat → Cells
  | 0 => dst
  | n + 1 => Cells.write (Cells.copy src start dst base n) (base + n) (Cells.read src (start + n))

/-- `for k in [0, length): dst[base + k] <- words[k]` (R212, R214). -/
def Cells.load : List Word → Cells → Nat → Cells
  | [], dst, _ => dst
  | w :: ws, dst, base => Cells.load ws (Cells.write dst base w) (base + 1)

/-! ### The register file -/

/-- `x[r]` (R20): no register is hard-wired. -/
def State.reg (s : State) (r : RegIdx) : Word := s.x[r.toNat]

/-- `x[r] <- v` (R20). -/
def State.setReg (s : State) (r : RegIdx) (v : Word) : State := { s with x := s.x.set r.toNat v }

/-! ### Faults -/

/-- `raise F`, and the end by `HALT`: a running machine halts with the cause, a halted one keeps its first cause (R171, R172).
Nothing else changes: no state is saved and `pc` goes nowhere (R109, R184; log entries 8 and 23). -/
def State.raise (s : State) (cause : HaltCause) : State :=
  match s.run with
  | .running => { s with run := .halted cause }
  | .halted _ => s

/-- The model's enumeration of the causes (R170, D25; log entry 26). -/
def HaltCause.code : HaltCause → Nat
  | .haltInstruction => 0
  | .unknownInstruction _ => 1
  | .invalidRegister _ => 2
  | .romAccessViolation _ => 3
  | .protectionViolation _ => 4
  | .fetchOverrun _ => 5

/-! ### The address decoder and the access paths -/

/-- The four ports in address order (R51, R53). -/
inductive Port where
  | kbd | dcmd | dsec | ddat
  deriving DecidableEq, Repr

/-- What an address names (R53). -/
inductive Region where
  | port (p : Port)
  | rom
  | ram
  deriving DecidableEq, Repr

/-- The port at an address, `Port(a - PORT_BASE)` of R53. -/
def portAt (a : Word) : Option Port :=
  if a = kbdPort then some .kbd
  else if a = dcmdPort then some .dcmd
  else if a = dsecPort then some .dsec
  else if a = ddatPort then some .ddat
  else none

/-- `Decode(a)`: ports first, then ROM, then RAM (R53, D28). -/
def decodeAddr (c : Config) (a : Word) : Region :=
  match portAt a with
  | some p => .port p
  | none => if a.toNat < c.romSize.val then .rom else .ram

/-- A decoded read of a port (R60): the latch reads as 0 when empty (D16). -/
def readPort (s : State) : Port → Word
  | .kbd => s.kbd.getD 0#16
  | .dcmd => s.dcmd
  | .dsec => s.dsec
  | .ddat => s.ddat

/-- A runtime write of a port: a key event (R61), or the register's new value and nothing else (R62). -/
def writePort (s : State) (p : Port) (v : Word) : State :=
  match p with
  | .kbd => { s with kbd := some v, iflag := true }
  | .dcmd => { s with dcmd := v }
  | .dsec => { s with dsec := v }
  | .ddat => { s with ddat := v }

/-- `MemRead(a, 1)` (R56): total, in every region, without side effect (R55, R57). ROM and RAM read alike, so the read does
not need `ROM_SIZE`. -/
def memRead (s : State) (a : Word) : Word :=
  match portAt a with
  | some p => readPort s p
  | none => Cells.read s.mem a.toNat

/-- `MemWrite(a, 1, v)` (R58): the runtime write path with the ROM gate (R59; log entry 22). -/
def memWrite (c : Config) (s : State) (a v : Word) : State :=
  match decodeAddr c a with
  | .rom => s.raise (.protectionViolation a)
  | .ram => { s with mem := Cells.write s.mem a.toNat v }
  | .port p => writePort s p v

/-! ### Configurations -/

/-- This machine's configuration: the OPEN parameters, and `LOD_ROM_FAULT = false` as decided (R10, D12; log entry 5). -/
def config : Config where
  romSize := Config.openRomSize
  winBase := Config.openWinBase
  kbdCell := Config.openKbdCell
  lodRomFault := false

/-- The reference configuration `REF` of the spec's test vectors (92_eei_decisions.md, last table); used by tests only. -/
def refConfig : Config where
  romSize := 0x0400
  winBase := 0x0400
  kbdCell := fun _ => 0
  lodRomFault := false

end Sys2Proof.Machine
end

