-- ==== Sys2Proof/Machine/Disk.lean ====
section
/-! DEFINITION. The disk controller (45_disk_commands.md): what its command register makes it do once per cycle, and the
diagnostics it emits. Its memory writes are direct and bypass the ROM gate (R63). -/

namespace Sys2Proof.Machine

/-- A state with the diagnostics emitted on the way to it. -/
abbrev Emitting := State × List Diagnostic

/-- The first word of the addressed sector, `dsec * SECTOR_WORDS` (R35). -/
def sectorBase (s : State) : Nat := s.dsec.toNat * sectorWords

/-- `DiskReset()` (R154): clears the sector and command registers and every word of plain memory, ROM included (R155;
log entry 16). -/
def diskReset (s : State) : Emitting :=
  ({ s with dsec := 0#16, dcmd := cmdIdle, mem := [], ddat := stOk }, [])

/-- A `Read` or `Write` of an out-of-range sector (R159, R160): one diagnostic and the status, nothing else. -/
def invalidSector (s : State) : Emitting :=
  ({ s with ddat := stInvalidSector }, [.invalidSector s.dsec])

/-- `DiskRead()` (R157): the addressed sector into the memory window (R158). -/
def diskRead (c : Config) (s : State) : Emitting :=
  if s.dsec.toNat < sectorCount then
    ({ s with mem := Cells.copy s.disk (sectorBase s) s.mem c.winBase.val sectorWords, ddat := stOk }, [])
  else invalidSector s

/-- The disk with the memory window copied into the addressed sector (R161). -/
def writtenDisk (c : Config) (s : State) : Cells :=
  Cells.copy s.mem c.winBase.val s.disk (sectorBase s) sectorWords

/-- `DiskWrite()` (R160): the copy, then the whole disk persists to the backing store (R161). -/
def diskWrite (c : Config) (s : State) : Emitting :=
  if s.dsec.toNat < sectorCount then
    ({ s with disk := writtenDisk c s, store := writtenDisk c s, ddat := stOk }, [])
  else invalidSector s

/-- Any other command value (R162). -/
def unknownCommand (s : State) : Emitting :=
  ({ s with ddat := stUnknownCommand }, [.unknownCommand s.dcmd])

/-- `DiskService()`, phase 2 of the cycle (R150), level-triggered (R153); a cleared command register is idle (R152);
the codes are log entry 14. -/
def diskService (c : Config) (s : State) : Emitting :=
  if s.dcmd = cmdIdle then (s, [])
  else if s.dcmd = cmdReset then diskReset s
  else if s.dcmd = cmdRead then diskRead c s
  else if s.dcmd = cmdWrite then diskWrite c s
  else unknownCommand s

end Sys2Proof.Machine
end

