-- ==== Sys2Proof/Machine/Flags.lean ====
section
/-! DEFINITION. The machine has no status flag and no condition code (R24): an addition's carry is discarded. The one flag is the
interrupt flag, which no instruction reads or writes (R32). -/

namespace Sys2Proof.Machine

/-- `a +16 b` (R11, R125, R127): addition modulo `2^16`, no flag. -/
def addWrap (a b : Word) : Word := a + b

/-- `iflag <- 1` (R32). -/
def State.raiseIflag (s : State) : State := { s with iflag := true }

/-- `iflag <- 0` (R182). -/
def State.clearIflag (s : State) : State := { s with iflag := false }

end Sys2Proof.Machine
end

