-- ==== Sys2Proof/Machine/Arith.lean ====
section
/-! DEFINITION. The arithmetic family (42_add.md). -/

namespace Sys2Proof.Machine

/-- `ADD r1, r2` (R125): both sources are read before the write. -/
def execAdd (r1 r2 : RegIdx) (s : State) : Host.Outcome State Fault Refusal :=
  .next (s.setReg r1 (addWrap (s.reg r1) (s.reg r2)))

end Sys2Proof.Machine
end

