-- ==== Sys2Proof/Machine/Operands.lean ====
section
/-! DEFINITION. Every operand form (30_encoding.md R83): a register number, and an absolute address, zero-extended, never
sign-extended, scaled or added to anything. -/

namespace Sys2Proof.Machine

/-- The effective address of `LOD`, `zext_16(addr8)` (R83(a)). -/
def addr8Operand (addr8 : BitVec 8) : Word := addr8.setWidth 16

/-- The target of `JMP`, `zext_16(addr12)` (R83(b)). -/
def addr12Operand (addr12 : BitVec 12) : Word := addr12.setWidth 16

/-- The word an illegal instruction was decoded from, as its fault records it (R138). -/
def illegalOperand (op : BitVec 4) (low : BitVec 12) : Word := op ++ low

end Sys2Proof.Machine
end

