-- ==== Sys2Proof/Machine/Halt.lean ====
section
/-! DEFINITION. `HALT` and the illegal opcodes (44_halt_unknown.md). Both leave a next state whose `run` is `halted`. -/

namespace Sys2Proof.Machine

/-- `HALT` (R135): the normal end of the run. -/
def execHalt (s : State) : Host.Outcome State Fault Refusal := .next (s.raise .haltInstruction)

/-- `Execute(ILLEGAL(w)) = raise UnknownInstruction(w)` (R138), with `w` from its opcode field and its low bits. -/
def raiseUnknown (op : BitVec 4) (low : BitVec 12) (s : State) : Host.Outcome State Fault Refusal :=
  .next (s.raise (.unknownInstruction (illegalOperand op low)))

/-- Illegal opcode `0x0` (R138). -/
def execIllegal0 (low : BitVec 12) (s : State) : Host.Outcome State Fault Refusal := raiseUnknown 0x0 low s

/-- Illegal opcode `0x3` (R138). -/
def execIllegal3 (low : BitVec 12) (s : State) : Host.Outcome State Fault Refusal := raiseUnknown 0x3 low s

/-- Illegal opcode `0x5` (R138). -/
def execIllegal5 (low : BitVec 12) (s : State) : Host.Outcome State Fault Refusal := raiseUnknown 0x5 low s

/-- Illegal opcode `0x6` (R138). -/
def execIllegal6 (low : BitVec 12) (s : State) : Host.Outcome State Fault Refusal := raiseUnknown 0x6 low s

/-- Illegal opcode `0x7` (R138). -/
def execIllegal7 (low : BitVec 12) (s : State) : Host.Outcome State Fault Refusal := raiseUnknown 0x7 low s

/-- Illegal opcode `0x8` (R138). -/
def execIllegal8 (low : BitVec 12) (s : State) : Host.Outcome State Fault Refusal := raiseUnknown 0x8 low s

/-- Illegal opcode `0x9` (R138). -/
def execIllegal9 (low : BitVec 12) (s : State) : Host.Outcome State Fault Refusal := raiseUnknown 0x9 low s

/-- Illegal opcode `0xA` (R138). -/
def execIllegalA (low : BitVec 12) (s : State) : Host.Outcome State Fault Refusal := raiseUnknown 0xA low s

/-- Illegal opcode `0xB` (R138). -/
def execIllegalB (low : BitVec 12) (s : State) : Host.Outcome State Fault Refusal := raiseUnknown 0xB low s

/-- Illegal opcode `0xC` (R138). -/
def execIllegalC (low : BitVec 12) (s : State) : Host.Outcome State Fault Refusal := raiseUnknown 0xC low s

/-- Illegal opcode `0xD` (R138). -/
def execIllegalD (low : BitVec 12) (s : State) : Host.Outcome State Fault Refusal := raiseUnknown 0xD low s

/-- Illegal opcode `0xE` (R138). -/
def execIllegalE (low : BitVec 12) (s : State) : Host.Outcome State Fault Refusal := raiseUnknown 0xE low s

end Sys2Proof.Machine
end

