-- ==== Sys2Proof/Machine/Jump.lean ====
section
/-! DEFINITION. The control transfer family (43_jmp.md). -/

namespace Sys2Proof.Machine

/-- `JMP addr12` (R130): overwrites the `pc` that fetch incremented. -/
def execJmp (addr12 : BitVec 12) (s : State) : Host.Outcome State Fault Refusal :=
  .next { s with pc := addr12Operand addr12 }

end Sys2Proof.Machine
end

