-- ==== Sys2Proof/Machine/Load.lean ====
section
/-! DEFINITION. The load family (41_lod.md). -/

namespace Sys2Proof.Machine

/-- `ExecLOD` under a given configuration (R120); the check of the switch `LOD_ROM_FAULT` comes before the read (R121). -/
def loadUnder (c : Config) (r : RegIdx) (addr8 : BitVec 8) (s : State) : State :=
  if c.lodRomFault && decide ((addr8Operand addr8).toNat < c.romSize.val) then
    s.raise (.romAccessViolation (addr8Operand addr8))
  else
    s.setReg r (memRead s (addr8Operand addr8))

/-- `LOD r, addr8` (R120). -/
def execLod (r : RegIdx) (addr8 : BitVec 8) (s : State) : Host.Outcome State Fault Refusal :=
  .next (loadUnder config r addr8 s)

end Sys2Proof.Machine
end

