-- ==== Sys2Proof/Machine/Dispatch.lean ====
section
/-! DEFINITION. `Execute`, phase 4 of the cycle (40_cycle.md R106): one arm per constructor. `pc` already holds the address of
the next word (R104). A next state that is still running is the spec's `Continue`. -/

namespace Sys2Proof.Machine

def exec (i : Instr) (s : State) : Host.Outcome State Fault Refusal :=
  match i with
  | .lod r addr8 => Sys2Proof.Machine.execLod r addr8 s
  | .add r1 r2 => Sys2Proof.Machine.execAdd r1 r2 s
  | .jmp addr12 => Sys2Proof.Machine.execJmp addr12 s
  | .halt => Sys2Proof.Machine.execHalt s
  | .illegal0 low => Sys2Proof.Machine.execIllegal0 low s
  | .illegal3 low => Sys2Proof.Machine.execIllegal3 low s
  | .illegal5 low => Sys2Proof.Machine.execIllegal5 low s
  | .illegal6 low => Sys2Proof.Machine.execIllegal6 low s
  | .illegal7 low => Sys2Proof.Machine.execIllegal7 low s
  | .illegal8 low => Sys2Proof.Machine.execIllegal8 low s
  | .illegal9 low => Sys2Proof.Machine.execIllegal9 low s
  | .illegalA low => Sys2Proof.Machine.execIllegalA low s
  | .illegalB low => Sys2Proof.Machine.execIllegalB low s
  | .illegalC low => Sys2Proof.Machine.execIllegalC low s
  | .illegalD low => Sys2Proof.Machine.execIllegalD low s
  | .illegalE low => Sys2Proof.Machine.execIllegalE low s

end Sys2Proof.Machine
end

