-- ==== Sys2Proof/Machine/Interrupt.lean ====
section
/-! DEFINITION. The interrupt service and the timer (60_exceptions.md R180 to R187): fixed hardware actions, no code, no vector,
nothing saved (R184). -/

namespace Sys2Proof.Machine

/-- The keyboard part of the service (R183): a pending key word goes unchanged to the cell `KbdCell(s)`, `s` being the state
at service entry, and the latch is emptied; without a key nothing happens
(log entries 4 and 15). -/
def serviceKeyboard (c : Config) (s : State) : State :=
  match s.kbd with
  | some v => { s with vb := Cells.write s.vb (c.kbdCell s).val v, kbd := none }
  | none => s

/-- `InterruptService()` (R181): the keyboard part, then the flag is cleared whatever set it (R182). -/
def interruptService (c : Config) (s : State) : State := (serviceKeyboard c s).clearIflag

/-- Phase 1 of the cycle (R101): the service runs when the flag is set. -/
def interruptPhase (c : Config) (s : State) : State := if s.iflag then interruptService c s else s

/-- `TimerAdvance()` (R186). -/
def timerAdvance (s : State) : State :=
  if s.timer + 1#16 = timerThreshold then State.raiseIflag { s with timer := 0#16 } else { s with timer := s.timer + 1#16 }

end Sys2Proof.Machine
end

