-- ==== Sys2Proof/Machine/Cycle.lean ====
section
/-! DEFINITION. The machine cycle `tick` (40_cycle.md R100): interrupt, disk, fetch, execute, timer. -/

namespace Sys2Proof.Machine

/-- Phases 1 and 2: the state the fetch sees, with the cycle's diagnostics (R101, R103). -/
def beforeFetch (c : Config) (s : State) : Emitting := diskService c (interruptPhase c s)

/-- Phase 3 (R104): the word at `pc`, and `pc` incremented; at the last address no word but `FetchOverrun`, `pc` kept (R105;
log entry 18). -/
def fetch (s : State) : Option Word × State :=
  if s.pc = lastAddr then (none, s.raise (.fetchOverrun s.pc))
  else (some (memRead s s.pc), { s with pc := s.pc + 1#16 })

/-- `Execute` under a given configuration (R106). `LOD` alone reads the configuration; `exec` is the machine's own. -/
def execUnder (c : Config) (i : Instr) (s : State) : Host.Outcome State Fault Refusal :=
  match i with
  | .lod r addr8 => .next (loadUnder c r addr8 s)
  | i => exec i s

/-- Phase 5 (R107): the timer advances exactly when execute returned `Continue`, which left the machine running
(log entries 19 and 23). -/
def timerPhase (s : State) : State :=
  match s.run with
  | .running => timerAdvance s
  | .halted _ => s

/-- Phases 4 and 5 on a fetched word. -/
def executePhase (c : Config) (ir : Word) (s : State) : Host.Outcome State Fault Refusal :=
  match execUnder c (decode ir) s with
  | .next t => .next (timerPhase t)
  | .fault f => .fault f
  | .refused r => .refused r

/-- Phases 3 to 5: a fetch that overran ends the cycle. -/
def fetchAndExecute (c : Config) (s : State) : Host.Outcome State Fault Refusal :=
  match fetch s with
  | (some ir, t) => executePhase c ir t
  | (none, t) => .next t

/-- `tick()` (R100) with the diagnostics it emits (R108); a halted machine does nothing (R102). -/
def tick (c : Config) (s : State) : Host.Outcome Emitting Fault Refusal :=
  match s.run with
  | .halted _ => .next (s, [])
  | .running =>
    match fetchAndExecute c (beforeFetch c s).1 with
    | .next t => .next (t, (beforeFetch c s).2)
    | .fault f => .fault f
    | .refused r => .refused r

end Sys2Proof.Machine
end

