-- ==== Sys2Proof/Machine/Step.lean ====
section
/-! DEFINITION. One step of the machine is one `Tick()` of its host (60_exceptions.md R196), and how a test word is placed. -/

namespace Sys2Proof.Machine

/-- One cycle of this machine. The cycle's diagnostics are an output of `tick`, not state (R37, R178; log entry 9). -/
def step (s : State) : Host.Outcome State Fault Refusal :=
  match tick config s with
  | .next t => .next t.1
  | .fault f => .fault f
  | .refused r => .refused r

/-- `s` with one word placed where the next step fetches (log entry 13): the machine runs, `pc` is at plain memory (the entry
point if it was at a port), and no disk command of the same cycle overwrites the word before the fetch (R103). -/
def State.withFetchWord (s : State) (nbits w : Nat) : State :=
  let pc := if s.pc.toNat < portBase then s.pc else 0#16
  { s with
    run := .running
    pc := pc
    dcmd := if s.dcmd = cmdReset ∨ s.dcmd = cmdRead then cmdIdle else s.dcmd
    mem := Cells.write s.mem pc.toNat (BitVec.ofNat 16 (w % 2 ^ nbits)) }

end Sys2Proof.Machine
end

