-- ==== Sys2Proof/Machine/HostPort.lean ====
section
/-! DEFINITION. The host interface (60_exceptions.md R195 to R202) and construction (70_reset_and_hazards.md R210 to R215). -/

namespace Sys2Proof.Machine

/-- The launch inputs of construction (R39, D21): words of memory, disk and Video Buffer that no image covers, as (address,
word) pairs. An unlisted word is 0, the reference value; of two pairs at one address the first counts
(DESIGN CHOICE, safe: log entry 24). -/
structure Launch where
  mem : Cells
  disk : Cells
  vb : Cells
  deriving DecidableEq, Repr

/-- The canonical array of `bound` words that reads as the pairs do; a pair outside the array is left out. -/
def launchArray (bound : Nat) : Cells → Cells
  | [] => []
  | (a, v) :: rest => if a < bound then Cells.write (launchArray bound rest) a v else launchArray bound rest

/-- The state's disk at construction: the disk image, beyond it the launch input (R214). -/
def constructDisk (diskImage : List Word) (launch : Launch) : Cells :=
  Cells.load (diskImage.take diskWords) (launchArray diskWords launch.disk) 0

/-- `Construct(memImage, diskImage, launchInputs)` (R210): the reset values, the boot-load, which bypasses the ROM gate and
drops image words beyond plain memory (R212), and the disk load (R214). -/
def construct (memImage diskImage : List Word) (launch : Launch) : State :=
  { State.reset with
    mem := Cells.load (memImage.take portBase) (launchArray portBase launch.mem) 0
    vb := launchArray vbCells launch.vb
    disk := constructDisk diskImage launch
    store := constructDisk diskImage launch }

/-- The words of an image file's bytes, little-endian (R64, D26); a trailing odd byte is not discussed (N27), so none then
(log entry 21). -/
def imageWords : List Byte → Option (List Word)
  | [] => some []
  | [_] => none
  | lo :: hi :: rest => (imageWords rest).map (fun ws => (hi ++ lo) :: ws)

/-- `BusRead(a)` (R197). -/
def busRead (s : State) (a : Word) : Word := memRead s a

/-- `BusWrite(a, v)` (R198), in any run state (R199). -/
def busWrite (c : Config) (s : State) (a v : Word) : State := memWrite c s a v

/-- `KeyEvent(v)` is `BusWrite(KBD_PORT, v)` (R200). -/
def keyEvent (c : Config) (s : State) (v : Word) : State := busWrite c s kbdPort v

/-- `ReadVideo(c)` (R201). -/
def readVideo (s : State) (cell : Fin vbCells) : Word := Cells.read s.vb cell.val

/-- The host's operations, complete (R195). -/
inductive HostOp where
  | construct (memImage diskImage : List Word) (launch : Launch)
  | tick
  | busRead (a : Word)
  | busWrite (a v : Word)
  | keyEvent (v : Word)
  | readVideo (cell : Fin vbCells)
  | observe
  deriving DecidableEq, Repr

/-- What the host gets (R195). -/
inductive Reply where
  | nothing
  | diagnostics (ds : List Diagnostic)
  | word (w : Word)
  | fault (cause : HaltCause)
  | machine (s : State)
  deriving DecidableEq, Repr

/-- What a `BusWrite` answers: a fault where the ROM gate rejects the write, else nothing (R195, R198). -/
def busWriteReply (c : Config) (a : Word) : Reply :=
  match decodeAddr c a with
  | .rom => .fault (.protectionViolation a)
  | .ram => .nothing
  | .port _ => .nothing

/-- One host operation (R195): each is atomic and happens between two cycles (R8, D22; log entry 11). -/
def hostStep (c : Config) (op : HostOp) (s : State) : Host.Outcome (State × Reply) Fault Refusal :=
  match op with
  | .construct memImage diskImage launch => .next (construct memImage diskImage launch, .nothing)
  | .tick =>
    match tick c s with
    | .next (t, ds) => .next (t, .diagnostics ds)
    | .fault f => .fault f
    | .refused r => .refused r
  | .busRead a => .next (s, .word (busRead s a))
  | .busWrite a v => .next (busWrite c s a v, busWriteReply c a)
  | .keyEvent v => .next (keyEvent c s v, .nothing)
  | .readVideo cell => .next (s, .word (readVideo s cell))
  | .observe => .next (s, .machine s)

end Sys2Proof.Machine
end

