-- ==== Sys2Proof/Safety.lean ====
section
/-! DEFINITION. The terms claims use: the invariants of reachable states (10_state.md R40) and the end of a run (40_cycle.md R110). -/

namespace Sys2Proof.Machine

/-- Every array is in its canonical form, within its size (R25, R34, R35, R36). -/
structure State.Arrays (s : State) : Prop where
  mem : Memory.wf s.mem
  vb : Cells.wf vbCells s.vb
  disk : Cells.wf diskWords s.disk
  store : Cells.wf diskWords s.store

/-- The invariants of R40 at a cycle boundary: (b) the timer's range, (c) the store equals the disk, (e) a pending key has the
interrupt flag set; and the form of the arrays. R40(a) is the type of `pc`. -/
structure State.Inv (s : State) : Prop where
  arrays : s.Arrays
  timer : s.timer.toNat < 8000
  store : s.store = s.disk
  latch : s.kbd ≠ none → s.iflag = true

/-- The frame of an instruction (R21, R23, R54(d), R140): outside the registers, `pc` and `run` nothing differs, and every address
reads as before. -/
structure State.SameOutside (s t : State) : Prop where
  mem : t.mem = s.mem
  kbd : t.kbd = s.kbd
  dcmd : t.dcmd = s.dcmd
  dsec : t.dsec = s.dsec
  ddat : t.ddat = s.ddat
  timer : t.timer = s.timer
  iflag : t.iflag = s.iflag
  vb : t.vb = s.vb
  disk : t.disk = s.disk
  store : t.store = s.store
  reads : ∀ a, memRead t a = memRead s a

/-- A number of cycles one after the other (R196). -/
def steps : Nat → State → Host.Outcome State Fault Refusal
  | 0, s => .next s
  | n + 1, s =>
    match step s with
    | .next t => steps n t
    | .fault f => .fault f
    | .refused r => .refused r

/-- The run has ended (R110). -/
def State.ended (s : State) : Prop := s.run ≠ .running

/-- The run has ended normally (R110). -/
def State.endedNormally (s : State) : Prop := s.run = .halted .haltInstruction

/-- The run has ended by a fault: every other cause (R110). -/
def State.endedByFault (s : State) : Prop := ∃ cause, s.run = .halted cause ∧ cause ≠ .haltInstruction

end Sys2Proof.Machine
end

