-- ==== Sys2Proof/Certificates/Slice0/Obligations.lean ====
section
/-! DEFINITION. The statements for the provers. Each docstring names the rules of spec/ it formalises. -/

open Sys2Proof Sys2Proof.Machine

/-- Construction gives every field its reset value and loads both images. Rests on 10_state.md R39,
70_reset_and_hazards.md R212, 70_reset_and_hazards.md R214. That timer, flag, latch and ports are zero is the spec's own
decision D20, the launch inputs are D21 (log entries 6 and 7). -/
def Obligations.ConstructGivesTheResetTable : Prop :=
  ∀ (memImage diskImage : List Word) (launch : Launch),
    let s := construct memImage diskImage launch
    (∀ r, s.reg r = 0#16) ∧ s.pc = 0#16 ∧ s.timer = 0#16 ∧ s.iflag = false ∧ s.kbd = none ∧
    s.dcmd = 0#16 ∧ s.dsec = 0#16 ∧ s.ddat = 0#16 ∧ s.run = .running ∧
    (∀ a, a < 65532 → Cells.read s.mem a = (memImage[a]?).getD (Cells.read launch.mem a)) ∧
    (∀ k, k < 10240 → Cells.read s.disk k = (diskImage[k]?).getD (Cells.read launch.disk k)) ∧
    (∀ k, k < 2000 → Cells.read s.vb k = Cells.read launch.vb k) ∧
    s.store = s.disk ∧ s.Arrays

/-- State.reset is construction from empty images under zero launch inputs. Rests on 10_state.md R39,
70_reset_and_hazards.md R210, 92_eei_decisions.md D21. That the launch inputs are zero is log entry 6. -/
def Obligations.ResetIsTheReferenceConstruction : Prop :=
  State.reset = construct [] [] { mem := [], disk := [], vb := [] }

/-- The state after reset meets the invariant of reachable states. Rests on 10_state.md R40. -/
def Obligations.ResetMeetsTheInvariant : Prop :=
  State.reset.Inv

/-- Every step keeps the invariant of reachable states. Rests on 10_state.md R40, 10_state.md R31, 10_state.md R36. -/
def Obligations.StepKeepsTheInvariant : Prop :=
  ∀ s t : State, s.Inv → step s = .next t → t.Inv

/-- Every host operation keeps the invariant, in every configuration. Rests on 10_state.md R40, 60_exceptions.md R195. -/
def Obligations.HostOperationsKeepTheInvariant : Prop :=
  ∀ (c : Config) (op : HostOp) (s t : State) (r : Reply), s.Inv → hostStep c op s = .next (t, r) → t.Inv

/-- No state is stuck: step and every host operation answer a next state. Rests on 93_implementation_defined.md section 3,
40_cycle.md R108, 40_cycle.md R102. -/
def Obligations.EveryHostOperationAnswersNext : Prop :=
  (∀ s : State, ∃ t, step s = .next t) ∧
    ∀ (c : Config) (op : HostOp) (s : State), ∃ t r, hostStep c op s = .next (t, r)

/-- At the fetch of every cycle no key is pending, so address 0xFFFC reads as zero. Rests on 10_state.md R40, 40_cycle.md
R101. -/
def Obligations.NoKeyIsPendingAtFetch : Prop :=
  ∀ (c : Config) (s : State), (s.kbd ≠ none → s.iflag = true) →
    (beforeFetch c s).1.kbd = none ∧ (beforeFetch c s).1.iflag = false ∧ memRead (beforeFetch c s).1 0xFFFC#16 = 0#16

/-- A tick of a halted machine changes nothing and emits nothing. Rests on 40_cycle.md R102. The spec's own decision D24
(log entry 8). -/
def Obligations.HaltedTickDoesNothing : Prop :=
  ∀ (c : Config) (s : State) (cause : HaltCause), s.run = .halted cause → tick c s = .next (s, []) ∧ step s = .next s

/-- Once halted, no operation but construction changes the run state, the core, the video or the disk. Rests on
60_exceptions.md R172, 60_exceptions.md R199, 10_state.md R40. What host writes still do is the spec's own decision D24
(log entry 8). -/
def Obligations.HaltedIsTerminal : Prop :=
  ∀ (c : Config) (op : HostOp) (s t : State) (r : Reply) (cause : HaltCause),
    (∀ m d l, op ≠ .construct m d l) → s.run = .halted cause → hostStep c op s = .next (t, r) →
    t.run = .halted cause ∧ t.x = s.x ∧ t.pc = s.pc ∧ t.timer = s.timer ∧ t.vb = s.vb ∧ t.disk = s.disk ∧ t.store = s.store ∧
    ((∀ a v, op ≠ .busWrite a v) → (∀ v, op ≠ .keyEvent v) → t = s)

/-- A step runs the instruction the fetched word decodes to, between the interrupt, disk and timer phases. Rests on
40_cycle.md R100, 40_cycle.md R104, 40_cycle.md R107. -/
def Obligations.StepRunsTheDecodedInstruction : Prop :=
  ∀ s : State, s.run = .running → s.pc ≠ 0xFFFF#16 →
    (step s =
      match exec (decode (memRead (beforeFetch config s).1 s.pc)) { (beforeFetch config s).1 with pc := s.pc + 1#16 } with
      | .next t => .next (timerPhase t)
      | .fault f => .fault f
      | .refused r => .refused r) ∧
    (s.iflag = false → s.dcmd = 0#16 → beforeFetch config s = (s, []))

/-- A cycle that starts its fetch at 0xFFFF raises FetchOverrun and keeps pc. Rests on 40_cycle.md R105. The spec's own
decision D14 (log entry 18). -/
def Obligations.FetchAtTheLastAddressOverruns : Prop :=
  ∀ (c : Config) (s : State), s.run = .running → s.pc = 0xFFFF#16 →
    ∃ t, tick c s = .next (t, (beforeFetch c s).2) ∧
      t = { (beforeFetch c s).1 with run := .halted (.fetchOverrun 0xFFFF#16) } ∧
      t.pc = 0xFFFF#16 ∧ t.timer = s.timer ∧ t.x = s.x

/-- How every cycle moves pc. Rests on 43_jmp.md R133. Derived by the spec; the overrun is its own decision D14 (log entry
18). -/
def Obligations.EveryCycleAdvancesPcAsTheTableSays : Prop :=
  ∀ (c : Config) (s t : State) (ds : List Diagnostic), s.run = .running → tick c s = .next (t, ds) →
    let i := decode (memRead (beforeFetch c s).1 s.pc)
    (s.pc = 0xFFFF#16 → t.pc = 0xFFFF#16 ∧ t.run = .halted (.fetchOverrun 0xFFFF#16)) ∧
    (s.pc ≠ 0xFFFF#16 →
      (∀ a, i = .jmp a → t.pc = a.setWidth 16 ∧ t.run = .running) ∧
      ((∀ a, i ≠ .jmp a) → t.pc = s.pc + 1#16) ∧
      (∀ r1 r2, i = .add r1 r2 → t.run = .running) ∧
      (∀ r a, i = .lod r a → (t.run = .running ↔ ¬ (c.lodRomFault = true ∧ a.toNat < c.romSize.val))) ∧
      (i = .halt → t.run = .halted .haltInstruction) ∧
      (∀ w, i.illegalWord = some w → t.run = .halted (.unknownInstruction w)))

/-- A cycle changes a register only where it is the destination of its LOD or ADD. Rests on 10_state.md R21. -/
def Obligations.OnlyLodAndAddWriteARegister : Prop :=
  ∀ (c : Config) (s t : State) (ds : List Diagnostic) (r : RegIdx), tick c s = .next (t, ds) →
    (s.run = .running → s.pc ≠ 0xFFFF#16 → ∀ a, decode (memRead (beforeFetch c s).1 s.pc) ≠ .lod r a) →
    (s.run = .running → s.pc ≠ 0xFFFF#16 → ∀ r2, decode (memRead (beforeFetch c s).1 s.pc) ≠ .add r r2) →
    t.reg r = s.reg r

/-- In a cycle memory changes only by a disk Reset or Read, the disk and store only by a disk Write. Rests on 20_memory.md
R54, 41_lod.md R123, 10_state.md R35, 45_disk_commands.md R158. The command codes are the spec's own decision D9 (log
entry 14). -/
def Obligations.OnlyTheDiskWritesMemoryInACycle : Prop :=
  ∀ (c : Config) (s t : State) (ds : List Diagnostic), tick c s = .next (t, ds) →
    (s.dcmd ≠ 1#16 → s.dcmd ≠ 2#16 → t.mem = s.mem) ∧
    (s.dcmd ≠ 1#16 → ∀ a, (a < c.winBase.val ∨ c.winBase.val + 1024 ≤ a) → Cells.read t.mem a = Cells.read s.mem a) ∧
    (s.dcmd ≠ 1#16 → 10 ≤ s.dsec.toNat → t.mem = s.mem) ∧
    (s.dcmd ≠ 3#16 ∨ 10 ≤ s.dsec.toNat → t.disk = s.disk ∧ t.store = s.store)

/-- In a cycle the Video Buffer changes in at most the one cell of a serviced key. Rests on 10_state.md R34,
60_exceptions.md R183. -/
def Obligations.OnlyTheInterruptServiceWritesVideo : Prop :=
  ∀ (c : Config) (s t : State) (ds : List Diagnostic) (k : Nat), tick c s = .next (t, ds) →
    (k ≠ (c.kbdCell s).val ∨ s.kbd = none ∨ s.iflag = false) → Cells.read t.vb k = Cells.read s.vb k

/-- The timer advances exactly in the cycles that go on, and raises the flag at the 8000th count. Rests on 40_cycle.md
R107, 60_exceptions.md R186, 60_exceptions.md R187. Not counting HALT is the spec's own decision D15 (log entry 19). -/
def Obligations.TheTimerCountsContinueCycles : Prop :=
  ∀ (c : Config) (s t : State) (ds : List Diagnostic), s.run = .running → s.timer.toNat < 8000 → tick c s = .next (t, ds) →
    (t.run = .running → t.timer.toNat = (s.timer.toNat + 1) % 8000 ∧ (t.iflag = true ↔ s.timer.toNat = 7999)) ∧
    (t.run ≠ .running → t.timer = s.timer ∧ t.iflag = false)

/-- A step of a running machine goes on, halts, meets an illegal word or overruns; no other fault is reached. Rests on
60_exceptions.md R174, 60_exceptions.md R176, 60_exceptions.md R177. That no LOD faults is the spec's own decision D12
(log entry 5). -/
def Obligations.StepEndsOnlyByThreeCauses : Prop :=
  ∀ s t : State, s.run = .running → step s = .next t →
    t.run = .running ∨ t.run = .halted .haltInstruction ∨ (∃ w, t.run = .halted (.unknownInstruction w)) ∨
      t.run = .halted (.fetchOverrun 0xFFFF#16)

/-- What a cycle that ends the run leaves. Rests on 40_cycle.md R109. What pc holds after a fault is the spec's own
derivation, the overrun its decision D14, the timer D15 (log entries 18 and 19). -/
def Obligations.StateLeftByACycleThatEndsTheRun : Prop :=
  ∀ (c : Config) (s t : State) (ds : List Diagnostic), s.run = .running → tick c s = .next (t, ds) → t.run ≠ .running →
    ds = (beforeFetch c s).2 ∧
    (s.pc ≠ 0xFFFF#16 → t = { (beforeFetch c s).1 with pc := s.pc + 1#16, run := t.run } ∧
      (t.run = .halted .haltInstruction ∨ (∃ w, t.run = .halted (.unknownInstruction w)) ∨
        (∃ a, t.run = .halted (.romAccessViolation a)))) ∧
    (s.pc = 0xFFFF#16 → t = { (beforeFetch c s).1 with run := .halted (.fetchOverrun 0xFFFF#16) } ∧ t.pc = 0xFFFF#16) ∧
    t.x = s.x ∧ t.timer = s.timer

/-- Decoding the encoding of any instruction gives it back. Rests on 30_encoding.md R92. -/
def Obligations.DecodeOfEncodeIsIdentity : Prop :=
  ∀ i : Instr, decode (encode i) = i

/-- Encoding the decoding of a word clears its ignored bits and keeps the rest. Rests on 30_encoding.md R92,
30_encoding.md R85. The ignored bits are the spec's own decision D13 (log entry 17). -/
def Obligations.EncodeOfDecodeClearsIgnoredBits : Prop :=
  ∀ w : Word, encode (decode w) = w &&& ~~~ ignoredBits (decode w) ∧
    (encode (decode w) = w ↔ w &&& ignoredBits (decode w) = 0#16)

/-- The encoder is the shifts and ors of the spec. Rests on 30_encoding.md R92, 30_encoding.md R82. -/
def Obligations.EncoderFormulas : Prop :=
  (∀ (r : RegIdx) (a : BitVec 8), encode (.lod r a) = 0x1000#16 ||| (r.setWidth 16 <<< 8) ||| a.setWidth 16) ∧
    (∀ r1 r2 : RegIdx, encode (.add r1 r2) = 0x2000#16 ||| (r1.setWidth 16 <<< 8) ||| (r2.setWidth 16 <<< 4)) ∧
    (∀ a : BitVec 12, encode (.jmp a) = 0x4000#16 ||| a.setWidth 16) ∧ encode .halt = 0xF000#16

/-- The decoder by the high nibble, with every field at its place. Formalises R89. -/
def Obligations.DecoderFollowsTheHighNibble : Prop :=
  ∀ w : Word,
    (w.toNat / 4096 = 1 → decode w = .lod (BitVec.ofNat 4 (w.toNat / 256)) (BitVec.ofNat 8 w.toNat)) ∧
    (w.toNat / 4096 = 2 → decode w = .add (BitVec.ofNat 4 (w.toNat / 256)) (BitVec.ofNat 4 (w.toNat / 16))) ∧
    (w.toNat / 4096 = 4 → decode w = .jmp (BitVec.ofNat 12 w.toNat)) ∧
    (w.toNat / 4096 = 15 → decode w = .halt) ∧
    (w.toNat / 4096 ≠ 1 → w.toNat / 4096 ≠ 2 → w.toNat / 4096 ≠ 4 → w.toNat / 4096 ≠ 15 → (decode w).illegalWord = some w)

/-- The low nibble of ADD and the low twelve bits of HALT do not matter. Rests on 30_encoding.md R85. The spec's own
decision D13 (log entry 17). -/
def Obligations.IgnoredBitsDoNotMatter : Prop :=
  ∀ w v : Word,
    (w.toNat / 4096 = 2 → w.toNat / 16 = v.toNat / 16 → decode w = decode v) ∧
    (w.toNat / 4096 = 15 → v.toNat / 4096 = 15 → decode w = decode v) ∧
    ∀ i : Instr, encode i &&& ignoredBits i = 0#16

/-- Words written out from the encoding tables decode to the instructions they stand for. Rests on 30_encoding.md R89,
95_test_vectors.md 2.1. -/
def Obligations.KnownWordsDecode : Prop :=
  decode 0x100A#16 = .lod 0#4 10#8 ∧ decode 0x1FFF#16 = .lod 15#4 255#8 ∧ decode 0x2001#16 = .add 0#4 0#4 ∧
    decode 0x2FEF#16 = .add 15#4 14#4 ∧ decode 0x4ABC#16 = .jmp 0xABC#12 ∧ decode 0xF123#16 = .halt ∧
    decode 0x0000#16 = .illegal0 0#12 ∧ decode 0x3000#16 = .illegal3 0#12 ∧ decode 0x5ABC#16 = .illegal5 0xABC#12 ∧
    decode 0xEFFF#16 = .illegalE 0xFFF#12

/-- The assembler syntax: each line with operands in range gives its word, and no other line gives one. Rests on
30_encoding.md R90. The syntax is the spec's own decision D27. -/
def Obligations.AssemblerLinesGiveTheirWords : Prop :=
  (∀ i a : Nat, assemble (.lod i a) = if i < 16 ∧ a < 256 then some (BitVec.ofNat 16 (0x1000 + i * 256 + a)) else none) ∧
    (∀ i j : Nat, assemble (.add i j) = if i < 16 ∧ j < 16 then some (BitVec.ofNat 16 (0x2000 + i * 256 + j * 16)) else none) ∧
    (∀ a : Nat, assemble (.jmp a) = if a < 4096 then some (BitVec.ofNat 16 (0x4000 + a)) else none) ∧
    assemble .halt = some 0xF000#16 ∧
    (∀ w : Nat, assemble (.word w) = if w < 65536 then some (BitVec.ofNat 16 w) else none)

/-- LOD loads its register with the word at its zero-extended address, and changes nothing else. Rests on 41_lod.md R120,
41_lod.md R121. That the switch is clear is the spec's own decision D12 (log entry 5). -/
def Obligations.LodLoadsTheMemoryWord : Prop :=
  ∀ (r : RegIdx) (addr8 : BitVec 8) (s : State), ∃ t, exec (.lod r addr8) s = .next t ∧
    t.reg r = memRead s (addr8.setWidth 16) ∧ t.reg r = Cells.read s.mem addr8.toNat ∧
    (∀ q, q ≠ r → t.reg q = s.reg q) ∧ t.pc = s.pc ∧ t.run = s.run ∧ s.SameOutside t ∧
    (s.run = .running → timerPhase t = timerAdvance t) ∧
    ∀ c : Config, (c.lodRomFault = true → addr8.toNat < c.romSize.val → s.run = .running →
        loadUnder c r addr8 s = { s with run := .halted (.romAccessViolation (addr8.setWidth 16)) }) ∧
      (c.lodRomFault = false ∨ c.romSize.val ≤ addr8.toNat → loadUnder c r addr8 s = t)

/-- ADD writes the sum modulo 65536 into its first register, and changes nothing else. Formalises R125. -/
def Obligations.AddIsAdditionModulo65536 : Prop :=
  (∀ (r1 r2 : RegIdx) (s : State), ∃ t, exec (.add r1 r2) s = .next t ∧
    (t.reg r1).toNat = ((s.reg r1).toNat + (s.reg r2).toNat) % 65536 ∧
    (∀ q, q ≠ r1 → t.reg q = s.reg q) ∧ t.pc = s.pc ∧ t.run = s.run ∧ s.SameOutside t ∧
    (s.run = .running → timerPhase t = timerAdvance t)) ∧
    (∀ w : Word, w.toNat / 4096 = 2 → decode w = .add (BitVec.ofNat 4 (w.toNat / 256)) (BitVec.ofNat 4 (w.toNat / 16)))

/-- JMP sets pc to its low twelve bits, and changes nothing else. Formalises R130. -/
def Obligations.JmpSetsThePc : Prop :=
  (∀ (addr12 : BitVec 12) (s : State), ∃ t, exec (.jmp addr12) s = .next t ∧ t.pc = addr12.setWidth 16 ∧
      t.x = s.x ∧ t.run = s.run ∧ s.SameOutside t ∧ (s.run = .running → timerPhase t = timerAdvance t)) ∧
    (∀ (w : Word) (s : State), w.toNat / 4096 = 4 → ∃ t, exec (decode w) s = .next t ∧ t.pc = w &&& 0x0FFF#16)

/-- HALT ends the run normally and changes nothing else. Formalises R135. -/
def Obligations.HaltEndsTheRunNormally : Prop :=
  (∀ s : State, s.run = .running → exec .halt s = .next { s with run := .halted .haltInstruction }) ∧
    (∀ (c : Config) (s : State), s.run = .running → s.pc ≠ 0xFFFF#16 →
      (memRead (beforeFetch c s).1 s.pc).toNat / 4096 = 15 → ∃ t ds, tick c s = .next (t, ds) ∧
        t = { (beforeFetch c s).1 with pc := s.pc + 1#16, run := .halted .haltInstruction } ∧ t.timer = s.timer)

/-- Every illegal opcode raises UnknownInstruction with its word, and changes nothing else. Formalises R138. -/
def Obligations.IllegalWordRaisesUnknownInstruction : Prop :=
  (∀ (i : Instr) (w : Word) (s : State), i.illegalWord = some w → s.run = .running →
      exec i s = .next { s with run := .halted (.unknownInstruction w) }) ∧
    (∀ (w : Word) (s : State), w.toNat / 4096 ∉ [1, 2, 4, 15] → s.run = .running →
      exec (decode w) s = .next { s with run := .halted (.unknownInstruction w) }) ∧
    (∀ (c : Config) (s : State), s.run = .running → s.pc ≠ 0xFFFF#16 →
      (memRead (beforeFetch c s).1 s.pc).toNat / 4096 ∉ [1, 2, 4, 15] → ∃ t ds, tick c s = .next (t, ds) ∧
        t = { (beforeFetch c s).1 with
          pc := s.pc + 1#16
          run := .halted (.unknownInstruction (memRead (beforeFetch c s).1 s.pc)) } ∧ t.timer = s.timer)

/-- LOD r, addr followed by ADD r, r doubles the memory word. Rests on 41_lod.md R124, 41_lod.md R121, 42_add.md R126.
That no LOD faults is the spec's own decision D12 (log entry 5). -/
def Obligations.LoadThenAddDoublesTheWord : Prop :=
  ∀ (s : State) (r : RegIdx) (addr8 : BitVec 8), s.run = .running → s.dcmd = 0#16 → s.pc.toNat + 1 < 65532 →
    decode (memRead s s.pc) = .lod r addr8 → decode (memRead s (s.pc + 1#16)) = .add r r →
    ∃ t u, step s = .next t ∧ step t = .next u ∧
      (u.reg r).toNat = 2 * (Cells.read s.mem addr8.toNat).toNat % 65536 ∧
      (∀ q, q ≠ r → u.reg q = s.reg q) ∧ u.pc = s.pc + 2#16 ∧ u.mem = s.mem ∧ u.run = .running

/-- A jump to its own address runs forever: after any number of steps pc and memory are as before. Rests on 43_jmp.md
R131, 40_cycle.md R110. -/
def Obligations.JumpToSelfWaitsForever : Prop :=
  ∀ (s : State) (addr12 : BitVec 12), s.run = .running → s.dcmd = 0#16 → s.pc.toNat < 65532 →
    decode (memRead s s.pc) = .jmp addr12 → addr12.setWidth 16 = s.pc →
    ∀ n, ∃ t, steps n s = .next t ∧ t.run = .running ∧ t.pc = s.pc ∧ t.x = s.x ∧ t.mem = s.mem

/-- The address decoder: the four ports at the top, ROM below ROM_SIZE, RAM between. Rests on 20_memory.md R51,
20_memory.md R53, 92_eei_decisions.md D3, D28. The port addresses are the spec's own decision D3, the order of the tests
D28 (log entry 14). -/
def Obligations.AddressesDecodeByTheMap : Prop :=
  ∀ (c : Config) (a : Word), decodeAddr c a =
    if a = 0xFFFC#16 then .port .kbd else if a = 0xFFFD#16 then .port .dcmd else if a = 0xFFFE#16 then .port .dsec
    else if a = 0xFFFF#16 then .port .ddat else if a.toNat < c.romSize.val then .rom else .ram

/-- What a decoded read returns, for plain memory and each port. Formalises R56. -/
def Obligations.MemReadByRegion : Prop :=
  ∀ (c : Config) (s : State) (a : Word),
    (decodeAddr c a = .rom ∨ decodeAddr c a = .ram → memRead s a = Cells.read s.mem a.toNat) ∧
    (decodeAddr c a = .port .kbd → (s.kbd = none → memRead s a = 0#16) ∧ ∀ v, s.kbd = some v → memRead s a = v) ∧
    (decodeAddr c a = .port .dcmd → memRead s a = s.dcmd) ∧ (decodeAddr c a = .port .dsec → memRead s a = s.dsec) ∧
    (decodeAddr c a = .port .ddat → memRead s a = s.ddat) ∧
    hostStep c (.busRead a) s = .next (s, .word (memRead s a))

/-- What a runtime write does, for ROM, RAM and each port. Formalises R58. -/
def Obligations.MemWriteByRegion : Prop :=
  ∀ (c : Config) (s : State) (a v : Word),
    (decodeAddr c a = .rom → memWrite c s a v = s.raise (.protectionViolation a) ∧ (memWrite c s a v).mem = s.mem) ∧
    (decodeAddr c a = .ram → memWrite c s a v = { s with mem := Cells.write s.mem a.toNat v } ∧
      ∀ b, Cells.read (memWrite c s a v).mem b = if b = a.toNat then v else Cells.read s.mem b) ∧
    (decodeAddr c a = .port .kbd → memWrite c s a v = { s with kbd := some v, iflag := true }) ∧
    (decodeAddr c a = .port .dcmd → memWrite c s a v = { s with dcmd := v }) ∧
    (decodeAddr c a = .port .dsec → memWrite c s a v = { s with dsec := v }) ∧
    (decodeAddr c a = .port .ddat → memWrite c s a v = { s with ddat := v })

/-- From ROM_SIZE up a read returns the word just written, and no other address reads differently. Rests on 20_memory.md
R67, 20_memory.md R59. -/
def Obligations.ReadAfterWriteReturnsTheWord : Prop :=
  ∀ (c : Config) (s : State) (a v : Word),
    (c.romSize.val ≤ a.toNat → memRead (memWrite c s a v) a = v) ∧
    (∀ b, b ≠ a → memRead (memWrite c s a v) b = memRead s b) ∧
    (∀ b : Word, b.toNat < c.romSize.val → memRead (memWrite c s a v) b = memRead s b)

/-- Raising a fault halts a running machine and leaves a halted one with its first cause. Rests on 60_exceptions.md R171,
60_exceptions.md R172, 60_exceptions.md R175. That a rejected host write ends the run is the spec's own decision D23 (log
entry 22). -/
def Obligations.RaiseKeepsTheFirstCause : Prop :=
  ∀ (s : State) (cause : HaltCause),
    (s.run = .running → s.raise cause = { s with run := .halted cause }) ∧
    (∀ first, s.run = .halted first → s.raise cause = s) ∧
    (∀ (c : Config) (a v : Word), a.toNat < c.romSize.val → (busWrite c s a v).mem = s.mem ∧ (busWrite c s a v).run ≠ .running)

/-- Bus reads, video reads and observation answer their value and leave the state alone. Rests on 60_exceptions.md R197,
60_exceptions.md R201, 60_exceptions.md R202, 20_memory.md R57. -/
def Obligations.HostReadsChangeNothing : Prop :=
  ∀ (c : Config) (s : State),
    (∀ a, hostStep c (.busRead a) s = .next (s, .word (memRead s a))) ∧
    (∀ cell : Fin 2000, hostStep c (.readVideo cell) s = .next (s, .word (Cells.read s.vb cell.val))) ∧
    hostStep c .observe s = .next (s, .machine s)

/-- The interrupt service writes a pending key into one video cell, empties the latch and clears the flag. Rests on
60_exceptions.md R181, 60_exceptions.md R183. The word stored, the emptied latch and the open cell are the spec's own
decisions D16 to D18 (log entries 4 and 15). -/
def Obligations.InterruptServiceIsAFixedAction : Prop :=
  ∀ (c : Config) (s : State),
    (∀ v, s.kbd = some v →
      interruptService c s = { s with vb := (interruptService c s).vb, kbd := none, iflag := false } ∧
      Cells.read (interruptService c s).vb (c.kbdCell s).val = v ∧
      (∀ k, k ≠ (c.kbdCell s).val → Cells.read (interruptService c s).vb k = Cells.read s.vb k) ∧
      memRead (interruptService c s) 0xFFFC#16 = 0#16) ∧
    (s.kbd = none → interruptService c s = { s with iflag := false })

/-- The service clears the flag whatever set it, and without a pending key does nothing else. Formalises R182. -/
def Obligations.InterruptServiceClearsTheFlag : Prop :=
  ∀ (c : Config) (s : State), (interruptService c s).iflag = false ∧
    (s.kbd = none → interruptService c s = { s with iflag := false }) ∧
    (s.iflag = true → interruptPhase c s = interruptService c s) ∧ (s.iflag = false → interruptPhase c s = s)

/-- The timer counts up and at 8000 raises the flag and starts again at zero. Formalises R186. -/
def Obligations.TimerAdvanceAtTheThreshold : Prop :=
  ∀ s : State,
    (s.timer = 7999#16 → timerAdvance s = { s with timer := 0#16, iflag := true }) ∧
    (s.timer ≠ 7999#16 → timerAdvance s = { s with timer := s.timer + 1#16 }) ∧
    (s.timer.toNat < 8000 → (timerAdvance s).timer.toNat < 8000)

/-- A key event is latched, the last one wins, and the next cycle writes it to the Video Buffer. Rests on 60_exceptions.md
R200, 20_memory.md R61, 70_reset_and_hazards.md R223. The latch and its consumption are the spec's own decisions D16 and
D19 (log entry 15). -/
def Obligations.KeyEventIsDisplayedByTheNextCycle : Prop :=
  ∀ (c : Config) (s : State) (v : Word),
    keyEvent c s v = { s with kbd := some v, iflag := true } ∧
    (∀ w, keyEvent c (keyEvent c s v) w = keyEvent c s w) ∧
    (s.run = .running → ∃ t ds, tick c (keyEvent c s v) = .next (t, ds) ∧
      Cells.read t.vb (c.kbdCell (keyEvent c s v)).val = v ∧ t.kbd = none)

/-- An idle command register makes the disk controller do nothing. Rests on 45_disk_commands.md R152. The silent idle
value is the spec's own decision D9 (log entry 14). -/
def Obligations.IdleDiskDoesNothing : Prop :=
  ∀ (c : Config) (s : State), s.dcmd = 0#16 → diskService c s = (s, [])

/-- The disk Reset command clears both registers and all plain memory, ROM included, and nothing else. Rests on
45_disk_commands.md R154, 45_disk_commands.md R155. The code and status values are the spec's own decisions D9 and D11,
the extent of the clear D8 (log entries 14 and 16). -/
def Obligations.DiskResetClearsMemory : Prop :=
  ∀ (c : Config) (s : State), s.dcmd = 1#16 → ∃ t, diskService c s = (t, []) ∧
    t = { s with dsec := 0#16, dcmd := 0#16, mem := t.mem, ddat := 0#16 } ∧ Memory.wf t.mem ∧
    ∀ a, Cells.read t.mem a = 0#16

/-- A successful disk Read copies the sector into the memory window, and nothing else changes. Rests on
45_disk_commands.md R158. Codes, status, geometry and window are the spec's own decisions D5, D6, D7, D9 and D11 (log
entries 3, 14 and 16). -/
def Obligations.DiskReadCopiesTheSector : Prop :=
  ∀ (c : Config) (s : State), s.dcmd = 2#16 → s.dsec.toNat < 10 → ∃ t, diskService c s = (t, []) ∧
    t = { s with mem := t.mem, ddat := 0#16 } ∧
    (∀ k, k < 1024 → Cells.read t.mem (c.winBase.val + k) = Cells.read s.disk (s.dsec.toNat * 1024 + k)) ∧
    (∀ a, (a < c.winBase.val ∨ c.winBase.val + 1024 ≤ a) → Cells.read t.mem a = Cells.read s.mem a) ∧
    (∀ k, k < 1024 → c.winBase.val + k < 65532)

/-- A successful disk Write copies the window into the sector and persists the whole disk. Rests on 45_disk_commands.md
R161. Codes, status, geometry and window are the spec's own decisions D5, D6, D9 and D11 (log entries 3 and 14). -/
def Obligations.DiskWriteCopiesTheWindow : Prop :=
  ∀ (c : Config) (s : State), s.dcmd = 3#16 → s.dsec.toNat < 10 → ∃ t, diskService c s = (t, []) ∧
    t = { s with disk := t.disk, store := t.disk, ddat := 0#16 } ∧
    (∀ k, k < 1024 → Cells.read t.disk (s.dsec.toNat * 1024 + k) = Cells.read s.mem (c.winBase.val + k)) ∧
    (∀ j, (j < s.dsec.toNat * 1024 ∨ s.dsec.toNat * 1024 + 1024 ≤ j) → Cells.read t.disk j = Cells.read s.disk j)

/-- A Read or Write of sector 10 or more transfers nothing and reports InvalidSector. Rests on 45_disk_commands.md R159,
45_disk_commands.md R160, 60_exceptions.md R178. Codes and status are the spec's own decisions D9 and D11 (log entry 14). -/
def Obligations.InvalidSectorDoesNoTransfer : Prop :=
  ∀ (c : Config) (s : State), (s.dcmd = 2#16 ∨ s.dcmd = 3#16) → 10 ≤ s.dsec.toNat →
    diskService c s = ({ s with ddat := 1#16 }, [.invalidSector s.dsec])

/-- A command value from 4 up reports UnknownCommand and has no other effect. Rests on 45_disk_commands.md R162. Codes and
status are the spec's own decisions D9 and D11 (log entry 14). -/
def Obligations.UnknownCommandIsReported : Prop :=
  ∀ (c : Config) (s : State), 4 ≤ s.dcmd.toNat →
    diskService c s = ({ s with ddat := 2#16 }, [.unknownCommand s.dcmd])

/-- The disk phase never touches the core, the timer, the flag, the latch or the video, and only Reset clears the command.
Rests on 45_disk_commands.md R150, 45_disk_commands.md R153, 45_disk_commands.md R151. Codes and status are the spec's own
decisions D9 and D11 (log entry 14). -/
def Obligations.DiskServiceLeavesTheCoreAlone : Prop :=
  ∀ (c : Config) (s : State),
    let t := (diskService c s).1
    t.x = s.x ∧ t.pc = s.pc ∧ t.timer = s.timer ∧ t.iflag = s.iflag ∧ t.kbd = s.kbd ∧ t.vb = s.vb ∧ t.run = s.run ∧
    (s.dcmd ≠ 1#16 → t.dcmd = s.dcmd ∧ t.dsec = s.dsec) ∧ (s.dcmd = 1#16 → t.dcmd = 0#16 ∧ t.dsec = 0#16) ∧
    (s.dcmd ≠ 0#16 → t.ddat.toNat ≤ 2) ∧ (diskService c s).2.length ≤ 1

/-- A cycle keeps the command and sector registers, except that Reset clears both, and the next cycle performs the command
again. Rests on 45_disk_commands.md R153, 40_cycle.md R102, 70_reset_and_hazards.md R222. Level triggering is the spec's
own decision D10 (log entry 14). -/
def Obligations.CommandsRepeatUntilTheHostChangesThem : Prop :=
  ∀ (c : Config) (s t : State) (ds : List Diagnostic), s.run = .running → tick c s = .next (t, ds) →
    (s.dcmd ≠ 1#16 → t.dcmd = s.dcmd ∧ t.dsec = s.dsec) ∧ (s.dcmd = 1#16 → t.dcmd = 0#16 ∧ t.dsec = 0#16) ∧
    (t.run = .running → s.dcmd ≠ 1#16 → ∃ p u, p = interruptPhase c t ∧ p.dcmd = s.dcmd ∧ p.dsec = s.dsec ∧
      tick c t = .next (u, (diskService c p).2) ∧ u.mem = (diskService c p).1.mem ∧ u.disk = (diskService c p).1.disk ∧
      u.store = (diskService c p).1.store ∧ u.ddat = (diskService c p).1.ddat) ∧
    (t.run ≠ .running → tick c t = .next (t, []))

/-- Write of a sector followed by Read of it restores the window. Rests on 45_disk_commands.md R164. Codes and geometry
are the spec's own decisions D5 and D9 (log entry 14). -/
def Obligations.DiskRoundTripRestoresTheWindow : Prop :=
  ∀ (c : Config) (s u : State), s.dsec.toNat < 10 → s.dcmd = 3#16 → u.dcmd = 2#16 → u.dsec = s.dsec →
    u.disk = (diskService c s).1.disk →
    ∀ k, k < 1024 → Cells.read (diskService c u).1.mem (c.winBase.val + k) = Cells.read s.mem (c.winBase.val + k)

/-- A disk Reset on a running machine ends the run in the same cycle. Rests on 45_disk_commands.md R156. Derived by the
spec from its decision D8 (log entry 16). -/
def Obligations.DiskResetEndsTheRun : Prop :=
  ∀ (c : Config) (s : State), (s.kbd ≠ none → s.iflag = true) → s.run = .running → s.dcmd = 1#16 →
    ∃ t, tick c s = .next (t, []) ∧
      (s.pc ≠ 0xFFFF#16 → t.run = .halted (.unknownInstruction 0x0000#16) ∧ t.pc = s.pc + 1#16) ∧
      (s.pc = 0xFFFF#16 → t.run = .halted (.fetchOverrun 0xFFFF#16) ∧ t.pc = 0xFFFF#16)

/-- A fetch from the disk window sees the sector the same cycle read into it. Rests on 20_memory.md R70, 40_cycle.md R103.
Codes and the ungated window are the spec's own decisions D7 and D9 (log entries 14 and 16). -/
def Obligations.FetchSeesTheDiskReadOfItsCycle : Prop :=
  ∀ (s : State) (k : Nat), s.run = .running → s.dcmd = 2#16 → s.dsec.toNat < 10 → k < 1024 →
    s.pc.toNat = config.winBase.val + k →
    ∃ u, exec (decode (Cells.read s.disk (s.dsec.toNat * 1024 + k))) { (beforeFetch config s).1 with pc := s.pc + 1#16 } = .next u ∧
      step s = .next (timerPhase u)

/-- A word placed by withFetchWord is the word the next step fetches. Rests on 40_cycle.md R100, 70_reset_and_hazards.md
R212. The model's own convention, log entry 13. -/
def Obligations.PlacedWordIsFetchedNext : Prop :=
  ∀ (s : State) (w : Nat), w < 65536 →
    let p := s.withFetchWord 16 w
    p.run = .running ∧ p.pc.toNat < 65532 ∧ memRead (beforeFetch config p).1 p.pc = BitVec.ofNat 16 w

/-- A BusWrite is the gated runtime write; it answers ProtectionViolation exactly for a ROM address. Rests on
60_exceptions.md R198, 60_exceptions.md R175, 60_exceptions.md R195. That the run ends is the spec's own decision D23 (log
entry 22). -/
def Obligations.BusWriteAnswersAFaultExactlyForRom : Prop :=
  ∀ (c : Config) (s : State) (a v : Word),
    hostStep c (.busWrite a v) s =
      .next (memWrite c s a v, if a.toNat < c.romSize.val then .fault (.protectionViolation a) else .nothing) ∧
    (s.run = .running → a.toNat < c.romSize.val → (memWrite c s a v).run = .halted (.protectionViolation a)) ∧
    (c.romSize.val ≤ a.toNat → (memWrite c s a v).run = s.run)

/-- A configuration is accepted exactly within the constraints on ROM_SIZE and DISK_WIN_BASE. Rests on 00_scope.md R10,
93_implementation_defined.md I2, I5, I35. -/
def Obligations.ConfigurationsOutsideTheirConstraintsAreRefused : Prop :=
  ∀ (romSize winBase : Nat) (kbdCell : State → Fin 2000) (flag : Bool),
    ((checkConfig romSize winBase kbdCell flag).isSome = true ↔ romSize ≤ 65532 ∧ winBase + 1024 ≤ 65532) ∧
    ∀ c, checkConfig romSize winBase kbdCell flag = some c → c.romSize.val = romSize ∧ c.winBase.val = winBase ∧
      c.kbdCell = kbdCell ∧ c.lodRomFault = flag

/-- Row and column number the video cells row by row, each cell once. Rests on 10_state.md R34, 92_eei_decisions.md D4.
Row-major order is the spec's own decision D4 (log entry 20). -/
def Obligations.VideoCellsAreNumberedRowByRow : Prop :=
  (∀ (row : Fin 25) (col : Fin 80), (vbIndex row col).val = row.val * 80 + col.val) ∧
    ∀ cell : Fin 2000, ∃ (row : Fin 25) (col : Fin 80), vbIndex row col = cell ∧
      ∀ (row' : Fin 25) (col' : Fin 80), vbIndex row' col' = cell → row' = row ∧ col' = col

/-- An image file holds each word low byte first. Rests on 20_memory.md R64, 92_eei_decisions.md D26. Little-endian is the
spec's own decision D26, the odd byte the model's choice (log entry 21). -/
def Obligations.ImageBytesAreLittleEndian : Prop :=
  (∀ ws : List Word, imageWords (ws.flatMap (fun w => [w.extractLsb' 0 8, w.extractLsb' 8 8])) = some ws) ∧
    ∀ bs : List Byte, bs.length % 2 = 1 → imageWords bs = none

/-- A step ends the run normally exactly by HALT, and by a fault exactly by an illegal word or an overrun. Rests on
40_cycle.md R110, 60_exceptions.md R170. The overrun is the spec's own decision D14 (log entry 18); that no LOD faults is
its decision D12 (log entry 5). -/
def Obligations.ARunEndsNormallyOnlyByHalt : Prop :=
  ∀ s t : State, s.run = .running → step s = .next t →
    let i := decode (memRead (beforeFetch config s).1 s.pc)
    (t.endedNormally ↔ s.pc ≠ 0xFFFF#16 ∧ i = .halt) ∧
    (t.endedByFault ↔ s.pc = 0xFFFF#16 ∨ ∃ w, i.illegalWord = some w) ∧
    (t.ended ↔ t.endedNormally ∨ t.endedByFault)

/-- The table's sixteen constructors and the five shapes of the spec decode alike and lose nothing. Rests on
30_encoding.md R88, 30_encoding.md R89. That the illegal shape is twelve constructors is the model's choice, log entry 10. -/
def Obligations.TheFiveShapesAreTheDecodedInstruction : Prop :=
  (∀ w : Word, (decode w).shape = decodeInstr w) ∧
    (∀ w : Word, decodeInstr w =
      if w.toNat / 4096 = 1 then .lod (BitVec.ofNat 4 (w.toNat / 256)) (BitVec.ofNat 8 w.toNat)
      else if w.toNat / 4096 = 2 then .add (BitVec.ofNat 4 (w.toNat / 256)) (BitVec.ofNat 4 (w.toNat / 16))
      else if w.toNat / 4096 = 4 then .jmp (BitVec.ofNat 12 w.toNat)
      else if w.toNat / 4096 = 15 then .halt else .illegal w) ∧
    ∀ i j : Instr, i.shape = j.shape → i = j
end

