-- ==== Sys2Proof/Laws/Cells.lean ====
section
/-! SUPPORT. Word arrays: what a read gives after each array operation, and that each keeps the canonical form. -/

namespace Sys2Proof.Machine

@[simp] theorem Cells.read_nil (a : Nat) : Cells.read [] a = 0#16 := rfl

theorem Cells.read_erase_self (m : Cells) (a : Nat) : Cells.read (Cells.erase m a) a = 0#16 := by
  induction m with
  | nil => rfl
  | cons e m ih =>
    obtain ⟨k, w⟩ := e
    by_cases h : k = a
    · simpa [Cells.erase, h] using ih
    · simpa [Cells.erase, h, Cells.read] using ih

theorem Cells.read_erase_ne (m : Cells) {a b : Nat} (hab : b ≠ a) :
    Cells.read (Cells.erase m a) b = Cells.read m b := by
  induction m with
  | nil => rfl
  | cons e m ih =>
    obtain ⟨k, w⟩ := e
    by_cases h : k = a
    · subst h
      simpa [Cells.erase, Cells.read, hab.symm] using ih
    · by_cases hb : k = b
      · subst hb
        simp [Cells.erase, h, Cells.read]
      · simpa [Cells.erase, h, hb, Cells.read] using ih

theorem Cells.read_insert_ne (m : Cells) {a b : Nat} (v : Word) (hab : b ≠ a) :
    Cells.read (Cells.insert m a v) b = Cells.read m b := by
  induction m with
  | nil => simp [Cells.insert, Cells.read, hab.symm]
  | cons e m ih =>
    obtain ⟨k, w⟩ := e
    by_cases h : a < k
    · simp [Cells.insert, h, Cells.read, hab.symm]
    · by_cases hb : k = b
      · subst hb; simp [Cells.insert, h, Cells.read]
      · simpa [Cells.insert, h, Cells.read, hb] using ih

theorem Cells.read_insert_self (m : Cells) (a : Nat) (v : Word) (hm : ∀ e ∈ m, e.1 ≠ a) :
    Cells.read (Cells.insert m a v) a = v := by
  induction m with
  | nil => simp [Cells.insert, Cells.read]
  | cons e m ih =>
    obtain ⟨k, w⟩ := e
    have hk : k ≠ a := hm (k, w) (by simp)
    have ih := ih (fun e he => hm e (by simp [he]))
    by_cases h : a < k
    · simp [Cells.insert, h, Cells.read]
    · simpa [Cells.insert, h, Cells.read, hk] using ih

theorem Cells.ne_of_mem_erase {m : Cells} {a : Nat} {e : Nat × Word} (he : e ∈ Cells.erase m a) : e.1 ≠ a := by
  simpa using (List.mem_filter.1 he).2

/-- A read after a write, in any array (no canonical form needed). -/
theorem Cells.read_write (m : Cells) (a b : Nat) (v : Word) :
    Cells.read (Cells.write m a v) b = if b = a then v else Cells.read m b := by
  by_cases hv : v = 0#16
  · by_cases hb : b = a
    · simp [Cells.write, hv, hb, Cells.read_erase_self]
    · simp [Cells.write, hv, hb, Cells.read_erase_ne m hb]
  · by_cases hb : b = a
    · simp [Cells.write, hv, hb, Cells.read_insert_self _ a v (fun e he => Cells.ne_of_mem_erase he)]
    · simp [Cells.write, hv, hb, Cells.read_insert_ne _ v hb, Cells.read_erase_ne m hb]

@[simp] theorem Cells.read_write_self (m : Cells) (a : Nat) (v : Word) : Cells.read (Cells.write m a v) a = v := by
  simp [Cells.read_write]

theorem Cells.read_write_ne (m : Cells) {a b : Nat} (v : Word) (h : b ≠ a) :
    Cells.read (Cells.write m a v) b = Cells.read m b := by
  simp [Cells.read_write, h]

/-- A read after a copy of `n` words to `base`. -/
theorem Cells.read_copy (src : Cells) (start : Nat) (dst : Cells) (base n a : Nat) :
    Cells.read (Cells.copy src start dst base n) a =
      if base ≤ a ∧ a < base + n then Cells.read src (start + (a - base)) else Cells.read dst a := by
  induction n with
  | zero => rw [Cells.copy, if_neg (by omega)]
  | succ n ih =>
    rw [Cells.copy, Cells.read_write, ih]
    by_cases h1 : a = base + n
    · subst h1; simp
    · by_cases h2 : base ≤ a ∧ a < base + n
      · rw [if_neg h1, if_pos h2, if_pos ⟨h2.1, by omega⟩]
      · rw [if_neg h1, if_neg h2, if_neg (by omega)]

/-- A read after loading a list of words at `base`. -/
theorem Cells.read_load (ws : List Word) (dst : Cells) (base a : Nat) :
    Cells.read (Cells.load ws dst base) a =
      if base ≤ a ∧ a < base + ws.length then ws.getD (a - base) 0#16 else Cells.read dst a := by
  induction ws generalizing dst base with
  | nil => rw [Cells.load, if_neg (by simp)]
  | cons w ws ih =>
    rw [Cells.load, ih, Cells.read_write]
    by_cases h0 : a = base
    · subst h0
      simp
    · by_cases h1 : base + 1 ≤ a ∧ a < base + 1 + ws.length
      · have h2 : base ≤ a ∧ a < base + (w :: ws).length := ⟨by omega, by simp; omega⟩
        rw [if_pos h1, if_pos h2]
        have h3 : a - base = (a - (base + 1)) + 1 := by omega
        rw [h3, List.getD_cons_succ]
      · have h2 : ¬ (base ≤ a ∧ a < base + (w :: ws).length) := by simp; omega
        rw [if_neg h1, if_neg h2, if_neg h0]

/-! ### The canonical form -/

theorem Cells.wf_nil (n : Nat) : Cells.wf n [] := ⟨List.Pairwise.nil, by simp⟩

theorem Cells.wf_erase {n : Nat} {m : Cells} (a : Nat) (h : Cells.wf n m) : Cells.wf n (Cells.erase m a) :=
  ⟨h.1.filter _, fun e he => h.2 e (List.mem_filter.1 he).1⟩

theorem Cells.mem_insert {m : Cells} {a : Nat} {v : Word} {e : Nat × Word} (he : e ∈ Cells.insert m a v) :
    e = (a, v) ∨ e ∈ m := by
  induction m with
  | nil => simpa [Cells.insert] using he
  | cons f m ih =>
    obtain ⟨k, w⟩ := f
    by_cases h : a < k
    · simpa [Cells.insert, h] using he
    · simp only [Cells.insert, h, if_false, List.mem_cons] at he ⊢
      tauto

theorem Cells.pairwise_insert {m : Cells} {a : Nat} {v : Word} (h : m.Pairwise (fun e f => e.1 < f.1))
    (hne : ∀ e ∈ m, e.1 ≠ a) : (Cells.insert m a v).Pairwise (fun e f => e.1 < f.1) := by
  induction m with
  | nil => simp [Cells.insert]
  | cons f m ih =>
    obtain ⟨k, w⟩ := f
    rw [List.pairwise_cons] at h
    by_cases hk : a < k
    · simp only [Cells.insert, hk, if_true, List.pairwise_cons, List.mem_cons]
      refine ⟨?_, h⟩
      rintro e (rfl | he)
      · exact hk
      · exact hk.trans (h.1 e he)
    · have hka : k ≠ a := hne (k, w) (by simp)
      simp only [Cells.insert, hk, if_false, List.pairwise_cons]
      refine ⟨fun e he => ?_, ih h.2 (fun e he => hne e (by simp [he]))⟩
      obtain rfl | he := Cells.mem_insert he
      · simp only; omega
      · exact h.1 e he

/-- A write within the array's size keeps the canonical form. -/
theorem Cells.wf_write {n : Nat} {m : Cells} {a : Nat} (v : Word) (ha : a < n) (h : Cells.wf n m) :
    Cells.wf n (Cells.write m a v) := by
  have he := Cells.wf_erase a h
  by_cases hv : v = 0#16
  · simpa [Cells.write, hv] using he
  · rw [Cells.write, if_neg hv]
    refine ⟨Cells.pairwise_insert he.1 (fun e => Cells.ne_of_mem_erase), fun e hm => ?_⟩
    obtain rfl | hm := Cells.mem_insert hm
    · exact ⟨ha, hv⟩
    · exact he.2 e hm

theorem Cells.wf_copy {n : Nat} (src : Cells) (start : Nat) {dst : Cells} {base k : Nat} (hk : base + k ≤ n)
    (h : Cells.wf n dst) : Cells.wf n (Cells.copy src start dst base k) := by
  induction k with
  | zero => exact h
  | succ k ih => exact Cells.wf_write _ (by omega) (ih (by omega))

theorem Cells.wf_load {n : Nat} (ws : List Word) {dst : Cells} {base : Nat} (hk : base + ws.length ≤ n)
    (h : Cells.wf n dst) : Cells.wf n (Cells.load ws dst base) := by
  induction ws generalizing dst base with
  | nil => exact h
  | cons w ws ih =>
    simp only [List.length_cons] at hk
    exact ih (by omega) (Cells.wf_write w (by omega) h)

theorem Cells.wf_launchArray (n : Nat) (l : Cells) : Cells.wf n (launchArray n l) := by
  induction l with
  | nil => exact Cells.wf_nil n
  | cons e l ih =>
    obtain ⟨a, v⟩ := e
    by_cases h : a < n
    · simpa [launchArray, h] using Cells.wf_write v h ih
    · simpa [launchArray, h] using ih

/-- A launch array reads as its pairs do, within its size. -/
theorem Cells.read_launchArray (n : Nat) (l : Cells) {a : Nat} (ha : a < n) :
    Cells.read (launchArray n l) a = Cells.read l a := by
  induction l with
  | nil => rfl
  | cons e l ih =>
    obtain ⟨k, v⟩ := e
    by_cases hk : k < n
    · rw [launchArray, if_pos hk, Cells.read_write, ih, Cells.read]
      by_cases h : k = a
      · simp [h]
      · simp [h, Ne.symm h]
    · rw [launchArray, if_neg hk, ih, Cells.read, if_neg (by omega)]

end Sys2Proof.Machine
end

