-- ==== Sys2Proof/Laws/State.lean ====
section
/-! SUPPORT. One lemma per field per named update of the state. -/

namespace Sys2Proof.Machine

@[simp] theorem State.setReg_pc (s : State) (r : RegIdx) (v : Word) : (s.setReg r v).pc = s.pc := rfl
@[simp] theorem State.setReg_mem (s : State) (r : RegIdx) (v : Word) : (s.setReg r v).mem = s.mem := rfl
@[simp] theorem State.setReg_kbd (s : State) (r : RegIdx) (v : Word) : (s.setReg r v).kbd = s.kbd := rfl
@[simp] theorem State.setReg_dcmd (s : State) (r : RegIdx) (v : Word) : (s.setReg r v).dcmd = s.dcmd := rfl
@[simp] theorem State.setReg_dsec (s : State) (r : RegIdx) (v : Word) : (s.setReg r v).dsec = s.dsec := rfl
@[simp] theorem State.setReg_ddat (s : State) (r : RegIdx) (v : Word) : (s.setReg r v).ddat = s.ddat := rfl
@[simp] theorem State.setReg_timer (s : State) (r : RegIdx) (v : Word) : (s.setReg r v).timer = s.timer := rfl
@[simp] theorem State.setReg_iflag (s : State) (r : RegIdx) (v : Word) : (s.setReg r v).iflag = s.iflag := rfl
@[simp] theorem State.setReg_run (s : State) (r : RegIdx) (v : Word) : (s.setReg r v).run = s.run := rfl
@[simp] theorem State.setReg_vb (s : State) (r : RegIdx) (v : Word) : (s.setReg r v).vb = s.vb := rfl
@[simp] theorem State.setReg_disk (s : State) (r : RegIdx) (v : Word) : (s.setReg r v).disk = s.disk := rfl
@[simp] theorem State.setReg_store (s : State) (r : RegIdx) (v : Word) : (s.setReg r v).store = s.store := rfl

@[simp] theorem State.raiseIflag_x (s : State) : (State.raiseIflag s).x = s.x := rfl
@[simp] theorem State.clearIflag_x (s : State) : (State.clearIflag s).x = s.x := rfl
@[simp] theorem State.raiseIflag_pc (s : State) : (State.raiseIflag s).pc = s.pc := rfl
@[simp] theorem State.clearIflag_pc (s : State) : (State.clearIflag s).pc = s.pc := rfl
@[simp] theorem State.raiseIflag_mem (s : State) : (State.raiseIflag s).mem = s.mem := rfl
@[simp] theorem State.clearIflag_mem (s : State) : (State.clearIflag s).mem = s.mem := rfl
@[simp] theorem State.raiseIflag_kbd (s : State) : (State.raiseIflag s).kbd = s.kbd := rfl
@[simp] theorem State.clearIflag_kbd (s : State) : (State.clearIflag s).kbd = s.kbd := rfl
@[simp] theorem State.raiseIflag_dcmd (s : State) : (State.raiseIflag s).dcmd = s.dcmd := rfl
@[simp] theorem State.clearIflag_dcmd (s : State) : (State.clearIflag s).dcmd = s.dcmd := rfl
@[simp] theorem State.raiseIflag_dsec (s : State) : (State.raiseIflag s).dsec = s.dsec := rfl
@[simp] theorem State.clearIflag_dsec (s : State) : (State.clearIflag s).dsec = s.dsec := rfl
@[simp] theorem State.raiseIflag_ddat (s : State) : (State.raiseIflag s).ddat = s.ddat := rfl
@[simp] theorem State.clearIflag_ddat (s : State) : (State.clearIflag s).ddat = s.ddat := rfl
@[simp] theorem State.raiseIflag_timer (s : State) : (State.raiseIflag s).timer = s.timer := rfl
@[simp] theorem State.clearIflag_timer (s : State) : (State.clearIflag s).timer = s.timer := rfl
@[simp] theorem State.raiseIflag_run (s : State) : (State.raiseIflag s).run = s.run := rfl
@[simp] theorem State.clearIflag_run (s : State) : (State.clearIflag s).run = s.run := rfl
@[simp] theorem State.raiseIflag_vb (s : State) : (State.raiseIflag s).vb = s.vb := rfl
@[simp] theorem State.clearIflag_vb (s : State) : (State.clearIflag s).vb = s.vb := rfl
@[simp] theorem State.raiseIflag_disk (s : State) : (State.raiseIflag s).disk = s.disk := rfl
@[simp] theorem State.clearIflag_disk (s : State) : (State.clearIflag s).disk = s.disk := rfl
@[simp] theorem State.raiseIflag_store (s : State) : (State.raiseIflag s).store = s.store := rfl
@[simp] theorem State.clearIflag_store (s : State) : (State.clearIflag s).store = s.store := rfl
@[simp] theorem State.raiseIflag_iflag (s : State) : (State.raiseIflag s).iflag = true := rfl
@[simp] theorem State.clearIflag_iflag (s : State) : (State.clearIflag s).iflag = false := rfl

@[simp] theorem State.raise_x (s : State) (cause : HaltCause) : (s.raise cause).x = s.x := by unfold State.raise; split <;> rfl
@[simp] theorem State.raise_pc (s : State) (cause : HaltCause) : (s.raise cause).pc = s.pc := by unfold State.raise; split <;> rfl
@[simp] theorem State.raise_mem (s : State) (cause : HaltCause) : (s.raise cause).mem = s.mem := by unfold State.raise; split <;> rfl
@[simp] theorem State.raise_kbd (s : State) (cause : HaltCause) : (s.raise cause).kbd = s.kbd := by unfold State.raise; split <;> rfl
@[simp] theorem State.raise_dcmd (s : State) (cause : HaltCause) : (s.raise cause).dcmd = s.dcmd := by unfold State.raise; split <;> rfl
@[simp] theorem State.raise_dsec (s : State) (cause : HaltCause) : (s.raise cause).dsec = s.dsec := by unfold State.raise; split <;> rfl
@[simp] theorem State.raise_ddat (s : State) (cause : HaltCause) : (s.raise cause).ddat = s.ddat := by unfold State.raise; split <;> rfl
@[simp] theorem State.raise_timer (s : State) (cause : HaltCause) : (s.raise cause).timer = s.timer := by unfold State.raise; split <;> rfl
@[simp] theorem State.raise_iflag (s : State) (cause : HaltCause) : (s.raise cause).iflag = s.iflag := by unfold State.raise; split <;> rfl
@[simp] theorem State.raise_vb (s : State) (cause : HaltCause) : (s.raise cause).vb = s.vb := by unfold State.raise; split <;> rfl
@[simp] theorem State.raise_disk (s : State) (cause : HaltCause) : (s.raise cause).disk = s.disk := by unfold State.raise; split <;> rfl
@[simp] theorem State.raise_store (s : State) (cause : HaltCause) : (s.raise cause).store = s.store := by unfold State.raise; split <;> rfl

/-- What `raise` does to a running machine. -/
theorem State.raise_of_running {s : State} (h : s.run = .running) (cause : HaltCause) :
    s.raise cause = { s with run := .halted cause } := by simp [State.raise, h]

/-- What `raise` does to a halted machine. -/
theorem State.raise_of_halted {s : State} {first : HaltCause} (h : s.run = .halted first) (cause : HaltCause) :
    s.raise cause = s := by simp [State.raise, h]

/-- After `raise` no machine runs. -/
theorem State.raise_run_ne_running (s : State) (cause : HaltCause) : (s.raise cause).run ≠ .running := by
  cases h : s.run with
  | running => simp [State.raise_of_running h]
  | halted first => simp [State.raise_of_halted h, h]

/-! ### Reading the register file after a write -/

@[simp] theorem State.reg_setReg_self (s : State) (r : RegIdx) (v : Word) : (s.setReg r v).reg r = v := by
  simp [State.reg, State.setReg]

theorem State.reg_setReg_ne (s : State) {r q : RegIdx} (v : Word) (h : q ≠ r) : (s.setReg r v).reg q = s.reg q := by
  have : r.toNat ≠ q.toNat := fun e => h (BitVec.eq_of_toNat_eq e.symm)
  simp [State.reg, State.setReg, this]

/-- Registers are read from `x` alone. -/
theorem State.reg_congr {s t : State} (h : s.x = t.x) (r : RegIdx) : s.reg r = t.reg r := by simp [State.reg, h]

end Sys2Proof.Machine
end

