-- ==== Sys2Proof/Laws/Access.lean ====
section
/-! SUPPORT. The address decoder and the two access paths, by region. -/

namespace Sys2Proof.Machine

/-- Below `PORT_BASE` there is no port. -/
theorem portAt_plain {a : Word} (h : a.toNat < portBase) : portAt a = none := by
  have hk : a ≠ kbdPort := by rintro rfl; exact absurd h (by decide)
  have hc : a ≠ dcmdPort := by rintro rfl; exact absurd h (by decide)
  have hs : a ≠ dsecPort := by rintro rfl; exact absurd h (by decide)
  have hd : a ≠ ddatPort := by rintro rfl; exact absurd h (by decide)
  simp [portAt, hk, hc, hs, hd]

/-- From `PORT_BASE` on the address is one of the four ports. -/
theorem port_cases {a : Word} (h : portBase ≤ a.toNat) :
    a = kbdPort ∨ a = dcmdPort ∨ a = dsecPort ∨ a = ddatPort := by
  have := a.isLt
  simp only [portBase] at h
  have : a.toNat = 0xFFFC ∨ a.toNat = 0xFFFD ∨ a.toNat = 0xFFFE ∨ a.toNat = 0xFFFF := by omega
  simpa [← BitVec.toNat_inj] using this

@[simp] theorem portAt_kbd : portAt kbdPort = some .kbd := by decide
@[simp] theorem portAt_dcmd : portAt dcmdPort = some .dcmd := by decide
@[simp] theorem portAt_dsec : portAt dsecPort = some .dsec := by decide
@[simp] theorem portAt_ddat : portAt ddatPort = some .ddat := by decide

/-- A read of plain memory reads `M`. -/
theorem memRead_plain (s : State) {a : Word} (h : a.toNat < portBase) : memRead s a = Cells.read s.mem a.toNat := by
  simp [memRead, portAt_plain h]

theorem decodeAddr_rom (c : Config) {a : Word} (h : a.toNat < c.romSize.val) : decodeAddr c a = .rom := by
  have hp : a.toNat < portBase := by have := c.romSize.isLt; omega
  simp [decodeAddr, portAt_plain hp, h]

theorem decodeAddr_ram (c : Config) {a : Word} (hr : c.romSize.val ≤ a.toNat) (h : a.toNat < portBase) :
    decodeAddr c a = .ram := by
  simp [decodeAddr, portAt_plain h]; omega

theorem decodeAddr_port (c : Config) {a : Word} {p : Port} (h : portAt a = some p) : decodeAddr c a = .port p := by
  simp [decodeAddr, h]

/-- A read depends on the memory, the latch and the disk ports only. -/
theorem memRead_congr {s t : State} (hm : s.mem = t.mem) (hk : s.kbd = t.kbd) (hc : s.dcmd = t.dcmd) (hs : s.dsec = t.dsec)
    (hd : s.ddat = t.ddat) (a : Word) : memRead s a = memRead t a := by
  unfold memRead
  split
  · rename_i p _
    cases p <;> simp [readPort, *]
  · rw [hm]

/-- The effective address of `LOD` is its operand, below every port (R83(a)). -/
@[simp] theorem addr8Operand_toNat (a : BitVec 8) : (addr8Operand a).toNat = a.toNat := by
  have := a.isLt
  simp [addr8Operand, BitVec.toNat_setWidth]; omega

/-- The target of `JMP` is its operand (R83(b)). -/
@[simp] theorem addr12Operand_toNat (a : BitVec 12) : (addr12Operand a).toNat = a.toNat := by
  have := a.isLt
  simp [addr12Operand, BitVec.toNat_setWidth]; omega

/-- `LOD` always reads plain memory (R54(b)). -/
theorem memRead_addr8 (s : State) (a : BitVec 8) : memRead s (addr8Operand a) = Cells.read s.mem a.toNat := by
  have := a.isLt
  rw [memRead_plain _ (by simp only [addr8Operand_toNat, portBase]; omega), addr8Operand_toNat]

end Sys2Proof.Machine
end

