-- ==== Sys2Proof/Laws/Phases.lean ====
section
/-! SUPPORT. What the interrupt service, the disk controller and the timer can change. -/

namespace Sys2Proof.Machine

/-! ### The interrupt phase -/

@[simp] theorem interruptPhase_x (c : Config) (s : State) : (interruptPhase c s).x = s.x := by
  unfold interruptPhase interruptService serviceKeyboard; split <;> [(split <;> rfl); rfl]
@[simp] theorem interruptPhase_pc (c : Config) (s : State) : (interruptPhase c s).pc = s.pc := by
  unfold interruptPhase interruptService serviceKeyboard; split <;> [(split <;> rfl); rfl]
@[simp] theorem interruptPhase_mem (c : Config) (s : State) : (interruptPhase c s).mem = s.mem := by
  unfold interruptPhase interruptService serviceKeyboard; split <;> [(split <;> rfl); rfl]
@[simp] theorem interruptPhase_dcmd (c : Config) (s : State) : (interruptPhase c s).dcmd = s.dcmd := by
  unfold interruptPhase interruptService serviceKeyboard; split <;> [(split <;> rfl); rfl]
@[simp] theorem interruptPhase_dsec (c : Config) (s : State) : (interruptPhase c s).dsec = s.dsec := by
  unfold interruptPhase interruptService serviceKeyboard; split <;> [(split <;> rfl); rfl]
@[simp] theorem interruptPhase_ddat (c : Config) (s : State) : (interruptPhase c s).ddat = s.ddat := by
  unfold interruptPhase interruptService serviceKeyboard; split <;> [(split <;> rfl); rfl]
@[simp] theorem interruptPhase_timer (c : Config) (s : State) : (interruptPhase c s).timer = s.timer := by
  unfold interruptPhase interruptService serviceKeyboard; split <;> [(split <;> rfl); rfl]
@[simp] theorem interruptPhase_run (c : Config) (s : State) : (interruptPhase c s).run = s.run := by
  unfold interruptPhase interruptService serviceKeyboard; split <;> [(split <;> rfl); rfl]
@[simp] theorem interruptPhase_disk (c : Config) (s : State) : (interruptPhase c s).disk = s.disk := by
  unfold interruptPhase interruptService serviceKeyboard; split <;> [(split <;> rfl); rfl]
@[simp] theorem interruptPhase_store (c : Config) (s : State) : (interruptPhase c s).store = s.store := by
  unfold interruptPhase interruptService serviceKeyboard; split <;> [(split <;> rfl); rfl]

/-- After phase 1 the flag is clear, whatever it was. -/
@[simp] theorem interruptPhase_iflag (c : Config) (s : State) : (interruptPhase c s).iflag = false := by
  unfold interruptPhase interruptService
  split
  · rfl
  · simpa using ‹¬ s.iflag = true›

/-- Without a set flag phase 1 does nothing. -/
theorem interruptPhase_of_clear (c : Config) {s : State} (h : s.iflag = false) : interruptPhase c s = s := by
  simp [interruptPhase, h]

/-- Where a pending key has its flag set, no key is pending after phase 1. -/
theorem interruptPhase_kbd (c : Config) {s : State} (h : s.kbd ≠ none → s.iflag = true) :
    (interruptPhase c s).kbd = none := by
  cases hk : s.kbd with
  | none => unfold interruptPhase interruptService serviceKeyboard; split <;> simp [hk]
  | some v => simp [interruptPhase, interruptService, serviceKeyboard, hk, h (by simp [hk])]

/-- The Video Buffer after phase 1: unchanged, or written in the one cell of a pending key. -/
theorem interruptPhase_vb (c : Config) (s : State) :
    (interruptPhase c s).vb = s.vb ∨
      ∃ v, s.iflag = true ∧ s.kbd = some v ∧ (interruptPhase c s).vb = Cells.write s.vb (c.kbdCell s).val v := by
  cases hi : s.iflag with
  | false => exact .inl (by rw [interruptPhase_of_clear c hi])
  | true =>
    cases hk : s.kbd with
    | none => exact .inl (by simp [interruptPhase, interruptService, serviceKeyboard, hk, hi])
    | some v => exact .inr ⟨v, rfl, rfl, by simp [interruptPhase, interruptService, serviceKeyboard, hk, hi]⟩

/-! ### The disk controller -/

theorem diskService_of_reset (c : Config) {s : State} (h : s.dcmd = cmdReset) : diskService c s = diskReset s := by
  rw [diskService, if_neg (by rw [h]; decide), if_pos h]

theorem diskService_of_read (c : Config) {s : State} (h : s.dcmd = cmdRead) : diskService c s = diskRead c s := by
  rw [diskService, if_neg (by rw [h]; decide), if_neg (by rw [h]; decide), if_pos h]

theorem diskService_of_write (c : Config) {s : State} (h : s.dcmd = cmdWrite) : diskService c s = diskWrite c s := by
  rw [diskService, if_neg (by rw [h]; decide), if_neg (by rw [h]; decide), if_neg (by rw [h]; decide), if_pos h]

/-- Everything a pass of the disk controller can do. -/
theorem diskService_cases (c : Config) (s : State) :
    (s.dcmd = cmdIdle ∧ diskService c s = (s, [])) ∨
    (s.dcmd = cmdReset ∧ diskService c s = diskReset s) ∨
    (s.dcmd = cmdRead ∧ s.dsec.toNat < sectorCount ∧ diskService c s =
      ({ s with mem := Cells.copy s.disk (sectorBase s) s.mem c.winBase.val sectorWords, ddat := stOk }, [])) ∨
    (s.dcmd = cmdWrite ∧ s.dsec.toNat < sectorCount ∧ diskService c s =
      ({ s with disk := writtenDisk c s, store := writtenDisk c s, ddat := stOk }, [])) ∨
    ((s.dcmd = cmdRead ∨ s.dcmd = cmdWrite) ∧ sectorCount ≤ s.dsec.toNat ∧ diskService c s = invalidSector s) ∨
    (4 ≤ s.dcmd.toNat ∧ diskService c s = unknownCommand s) := by
  by_cases h0 : s.dcmd = cmdIdle
  · exact .inl ⟨h0, by simp [diskService, h0]⟩
  by_cases h1 : s.dcmd = cmdReset
  · exact .inr (.inl ⟨h1, by simp [diskService, h1]⟩)
  by_cases h2 : s.dcmd = cmdRead
  · by_cases hs : s.dsec.toNat < sectorCount
    · exact .inr (.inr (.inl ⟨h2, hs, by rw [diskService, if_neg h0, if_neg h1, if_pos h2, diskRead, if_pos hs]⟩))
    · exact .inr (.inr (.inr (.inr (.inl ⟨.inl h2, Nat.le_of_not_lt hs,
        by rw [diskService, if_neg h0, if_neg h1, if_pos h2, diskRead, if_neg hs]⟩))))
  by_cases h3 : s.dcmd = cmdWrite
  · by_cases hs : s.dsec.toNat < sectorCount
    · exact .inr (.inr (.inr (.inl ⟨h3, hs,
        by rw [diskService, if_neg h0, if_neg h1, if_neg h2, if_pos h3, diskWrite, if_pos hs]⟩)))
    · exact .inr (.inr (.inr (.inr (.inl ⟨.inr h3, Nat.le_of_not_lt hs,
        by rw [diskService, if_neg h0, if_neg h1, if_neg h2, if_pos h3, diskWrite, if_neg hs]⟩))))
  refine .inr (.inr (.inr (.inr (.inr ⟨?_, by rw [diskService, if_neg h0, if_neg h1, if_neg h2, if_neg h3]⟩))))
  rw [← BitVec.toNat_inj] at h0 h1 h2 h3
  simp at h0 h1 h2 h3
  omega

@[simp] theorem diskService_x (c : Config) (s : State) : (diskService c s).1.x = s.x := by
  obtain ⟨_, h⟩ | ⟨_, h⟩ | ⟨_, _, h⟩ | ⟨_, _, h⟩ | ⟨_, _, h⟩ | ⟨_, h⟩ := diskService_cases c s <;> rw [h] <;> rfl
@[simp] theorem diskService_pc (c : Config) (s : State) : (diskService c s).1.pc = s.pc := by
  obtain ⟨_, h⟩ | ⟨_, h⟩ | ⟨_, _, h⟩ | ⟨_, _, h⟩ | ⟨_, _, h⟩ | ⟨_, h⟩ := diskService_cases c s <;> rw [h] <;> rfl
@[simp] theorem diskService_kbd (c : Config) (s : State) : (diskService c s).1.kbd = s.kbd := by
  obtain ⟨_, h⟩ | ⟨_, h⟩ | ⟨_, _, h⟩ | ⟨_, _, h⟩ | ⟨_, _, h⟩ | ⟨_, h⟩ := diskService_cases c s <;> rw [h] <;> rfl
@[simp] theorem diskService_timer (c : Config) (s : State) : (diskService c s).1.timer = s.timer := by
  obtain ⟨_, h⟩ | ⟨_, h⟩ | ⟨_, _, h⟩ | ⟨_, _, h⟩ | ⟨_, _, h⟩ | ⟨_, h⟩ := diskService_cases c s <;> rw [h] <;> rfl
@[simp] theorem diskService_iflag (c : Config) (s : State) : (diskService c s).1.iflag = s.iflag := by
  obtain ⟨_, h⟩ | ⟨_, h⟩ | ⟨_, _, h⟩ | ⟨_, _, h⟩ | ⟨_, _, h⟩ | ⟨_, h⟩ := diskService_cases c s <;> rw [h] <;> rfl
@[simp] theorem diskService_run (c : Config) (s : State) : (diskService c s).1.run = s.run := by
  obtain ⟨_, h⟩ | ⟨_, h⟩ | ⟨_, _, h⟩ | ⟨_, _, h⟩ | ⟨_, _, h⟩ | ⟨_, h⟩ := diskService_cases c s <;> rw [h] <;> rfl
@[simp] theorem diskService_vb (c : Config) (s : State) : (diskService c s).1.vb = s.vb := by
  obtain ⟨_, h⟩ | ⟨_, h⟩ | ⟨_, _, h⟩ | ⟨_, _, h⟩ | ⟨_, _, h⟩ | ⟨_, h⟩ := diskService_cases c s <;> rw [h] <;> rfl

/-! ### Before the fetch -/

@[simp] theorem beforeFetch_x (c : Config) (s : State) : (beforeFetch c s).1.x = s.x := by simp [beforeFetch]
@[simp] theorem beforeFetch_pc (c : Config) (s : State) : (beforeFetch c s).1.pc = s.pc := by simp [beforeFetch]
@[simp] theorem beforeFetch_timer (c : Config) (s : State) : (beforeFetch c s).1.timer = s.timer := by simp [beforeFetch]
@[simp] theorem beforeFetch_run (c : Config) (s : State) : (beforeFetch c s).1.run = s.run := by simp [beforeFetch]
@[simp] theorem beforeFetch_iflag (c : Config) (s : State) : (beforeFetch c s).1.iflag = false := by simp [beforeFetch]

/-- With no interrupt pending and an idle disk, the fetch sees the state the cycle began with. -/
theorem beforeFetch_of_idle (c : Config) {s : State} (hi : s.iflag = false) (hd : s.dcmd = cmdIdle) :
    beforeFetch c s = (s, []) := by
  rw [beforeFetch, interruptPhase_of_clear c hi, diskService, if_pos hd]

/-! ### The timer -/

@[simp] theorem timerAdvance_x (s : State) : (timerAdvance s).x = s.x := by unfold timerAdvance; split <;> rfl
@[simp] theorem timerAdvance_pc (s : State) : (timerAdvance s).pc = s.pc := by unfold timerAdvance; split <;> rfl
@[simp] theorem timerAdvance_mem (s : State) : (timerAdvance s).mem = s.mem := by unfold timerAdvance; split <;> rfl
@[simp] theorem timerAdvance_kbd (s : State) : (timerAdvance s).kbd = s.kbd := by unfold timerAdvance; split <;> rfl
@[simp] theorem timerAdvance_dcmd (s : State) : (timerAdvance s).dcmd = s.dcmd := by unfold timerAdvance; split <;> rfl
@[simp] theorem timerAdvance_dsec (s : State) : (timerAdvance s).dsec = s.dsec := by unfold timerAdvance; split <;> rfl
@[simp] theorem timerAdvance_ddat (s : State) : (timerAdvance s).ddat = s.ddat := by unfold timerAdvance; split <;> rfl
@[simp] theorem timerAdvance_run (s : State) : (timerAdvance s).run = s.run := by unfold timerAdvance; split <;> rfl
@[simp] theorem timerAdvance_vb (s : State) : (timerAdvance s).vb = s.vb := by unfold timerAdvance; split <;> rfl
@[simp] theorem timerAdvance_disk (s : State) : (timerAdvance s).disk = s.disk := by unfold timerAdvance; split <;> rfl
@[simp] theorem timerAdvance_store (s : State) : (timerAdvance s).store = s.store := by unfold timerAdvance; split <;> rfl
@[simp] theorem timerPhase_x (s : State) : (timerPhase s).x = s.x := by unfold timerPhase; split <;> simp
@[simp] theorem timerPhase_pc (s : State) : (timerPhase s).pc = s.pc := by unfold timerPhase; split <;> simp
@[simp] theorem timerPhase_mem (s : State) : (timerPhase s).mem = s.mem := by unfold timerPhase; split <;> simp
@[simp] theorem timerPhase_kbd (s : State) : (timerPhase s).kbd = s.kbd := by unfold timerPhase; split <;> simp
@[simp] theorem timerPhase_dcmd (s : State) : (timerPhase s).dcmd = s.dcmd := by unfold timerPhase; split <;> simp
@[simp] theorem timerPhase_dsec (s : State) : (timerPhase s).dsec = s.dsec := by unfold timerPhase; split <;> simp
@[simp] theorem timerPhase_ddat (s : State) : (timerPhase s).ddat = s.ddat := by unfold timerPhase; split <;> simp
@[simp] theorem timerPhase_run (s : State) : (timerPhase s).run = s.run := by unfold timerPhase; split <;> simp
@[simp] theorem timerPhase_vb (s : State) : (timerPhase s).vb = s.vb := by unfold timerPhase; split <;> simp
@[simp] theorem timerPhase_disk (s : State) : (timerPhase s).disk = s.disk := by unfold timerPhase; split <;> simp
@[simp] theorem timerPhase_store (s : State) : (timerPhase s).store = s.store := by unfold timerPhase; split <;> simp

/-- Phase 5 of a machine that still runs. -/
theorem timerPhase_of_running {s : State} (h : s.run = .running) : timerPhase s = timerAdvance s := by simp [timerPhase, h]

/-- Phase 5 of a machine whose run has ended. -/
theorem timerPhase_of_not_running {s : State} (h : s.run ≠ .running) : timerPhase s = s := by
  cases hr : s.run with
  | running => exact absurd hr h
  | halted cause => simp [timerPhase, hr]

/-- The timer's count below its threshold. -/
theorem timerAdvance_timer {s : State} (h : s.timer.toNat < 8000) :
    (timerAdvance s).timer.toNat = (s.timer.toNat + 1) % 8000 := by
  unfold timerAdvance
  split
  · rename_i he
    rw [← BitVec.toNat_inj, BitVec.toNat_add] at he
    simp at he ⊢
    omega
  · rename_i he
    rw [← BitVec.toNat_inj, BitVec.toNat_add] at he
    simp [BitVec.toNat_add] at he ⊢
    omega

/-- The timer raises the flag exactly at its threshold. -/
theorem timerAdvance_iflag {s : State} (h : s.timer.toNat < 8000) (hi : s.iflag = false) :
    (timerAdvance s).iflag = true ↔ s.timer.toNat = 7999 := by
  unfold timerAdvance
  split
  · rename_i he
    rw [← BitVec.toNat_inj, BitVec.toNat_add] at he
    simp at he ⊢
    omega
  · rename_i he
    rw [← BitVec.toNat_inj, BitVec.toNat_add] at he
    simp at he
    simp [hi]
    omega

/-- The flag is never cleared by the timer. -/
theorem timerAdvance_iflag_of_set {s : State} (h : s.iflag = true) : (timerAdvance s).iflag = true := by
  unfold timerAdvance; split <;> simp [h]

end Sys2Proof.Machine
end

