-- ==== Sys2Proof/Laws/Cycle.lean ====
section
/-! SUPPORT. What execute and one cycle can do, said once: inversion lemmas for `execUnder`, `tick`, `step` and `hostStep`. -/

namespace Sys2Proof.Machine

/-- The machine's own configuration executes as `exec` does. -/
@[simp] theorem execUnder_config (i : Instr) (s : State) : execUnder config i s = exec i s := by
  cases i <;> rfl

/-- `LOD` under a configuration, where the switch does not stop it. -/
theorem loadUnder_of_allowed {c : Config} {r : RegIdx} {a : BitVec 8} (s : State)
    (h : ¬ (c.lodRomFault = true ∧ a.toNat < c.romSize.val)) :
    loadUnder c r a s = s.setReg r (Cells.read s.mem a.toNat) := by
  simp only [loadUnder, addr8Operand_toNat, memRead_addr8, Bool.and_eq_true, decide_eq_true_eq, if_neg h]

/-- `LOD` under a configuration whose switch stops it. -/
theorem loadUnder_of_stopped {c : Config} {r : RegIdx} {a : BitVec 8} (s : State)
    (h : c.lodRomFault = true ∧ a.toNat < c.romSize.val) :
    loadUnder c r a s = s.raise (.romAccessViolation (addr8Operand a)) := by
  simp only [loadUnder, addr8Operand_toNat, Bool.and_eq_true, decide_eq_true_eq, if_pos h]

/-- `LOD` on this machine, whose switch is off. -/
theorem loadUnder_config (r : RegIdx) (a : BitVec 8) (s : State) :
    loadUnder config r a s = s.setReg r (Cells.read s.mem a.toNat) :=
  loadUnder_of_allowed s (by simp [config])

/-- Everything execute can do: it answers a next state, by one of the five shapes of R106. -/
theorem execUnder_cases (c : Config) (i : Instr) (s : State) :
    (∃ r a, i = .lod r a ∧ execUnder c i s = .next (loadUnder c r a s)) ∨
    (∃ r1 r2, i = .add r1 r2 ∧ execUnder c i s = .next (s.setReg r1 (addWrap (s.reg r1) (s.reg r2)))) ∨
    (∃ a, i = .jmp a ∧ execUnder c i s = .next { s with pc := addr12Operand a }) ∨
    (i = .halt ∧ execUnder c i s = .next (s.raise .haltInstruction)) ∨
    (∃ w, i.illegalWord = some w ∧ execUnder c i s = .next (s.raise (.unknownInstruction w))) := by
  cases i with
  | lod r a => exact .inl ⟨r, a, rfl, rfl⟩
  | add r1 r2 => exact .inr (.inl ⟨r1, r2, rfl, rfl⟩)
  | jmp a => exact .inr (.inr (.inl ⟨a, rfl, rfl⟩))
  | halt => exact .inr (.inr (.inr (.inl ⟨rfl, rfl⟩)))
  | illegal0 low => exact .inr (.inr (.inr (.inr ⟨_, rfl, rfl⟩)))
  | illegal3 low => exact .inr (.inr (.inr (.inr ⟨_, rfl, rfl⟩)))
  | illegal5 low => exact .inr (.inr (.inr (.inr ⟨_, rfl, rfl⟩)))
  | illegal6 low => exact .inr (.inr (.inr (.inr ⟨_, rfl, rfl⟩)))
  | illegal7 low => exact .inr (.inr (.inr (.inr ⟨_, rfl, rfl⟩)))
  | illegal8 low => exact .inr (.inr (.inr (.inr ⟨_, rfl, rfl⟩)))
  | illegal9 low => exact .inr (.inr (.inr (.inr ⟨_, rfl, rfl⟩)))
  | illegalA low => exact .inr (.inr (.inr (.inr ⟨_, rfl, rfl⟩)))
  | illegalB low => exact .inr (.inr (.inr (.inr ⟨_, rfl, rfl⟩)))
  | illegalC low => exact .inr (.inr (.inr (.inr ⟨_, rfl, rfl⟩)))
  | illegalD low => exact .inr (.inr (.inr (.inr ⟨_, rfl, rfl⟩)))
  | illegalE low => exact .inr (.inr (.inr (.inr ⟨_, rfl, rfl⟩)))

/-- The word a cycle of a running machine fetches: read at `pc` after the cycle's interrupt and disk phases. -/
def fetchedWord (c : Config) (s : State) : Word := memRead (beforeFetch c s).1 s.pc

/-- The state execute sees in a cycle that fetched. -/
def fetchedState (c : Config) (s : State) : State := { (beforeFetch c s).1 with pc := s.pc + 1#16 }

/-- Everything one cycle can do: nothing when halted, an overrun at the last address, or the fetched word's instruction
followed by the timer phase. -/
theorem tick_cases (c : Config) (s : State) :
    (∃ cause, s.run = .halted cause ∧ tick c s = .next (s, [])) ∨
    (s.run = .running ∧ s.pc = lastAddr ∧
      tick c s = .next ({ (beforeFetch c s).1 with run := .halted (.fetchOverrun lastAddr) }, (beforeFetch c s).2)) ∨
    (s.run = .running ∧ s.pc ≠ lastAddr ∧ ∃ u, execUnder c (decode (fetchedWord c s)) (fetchedState c s) = .next u ∧
      tick c s = .next (timerPhase u, (beforeFetch c s).2)) := by
  cases hr : s.run with
  | halted cause => exact .inl ⟨cause, rfl, by simp [tick, hr]⟩
  | running =>
    have hb : (beforeFetch c s).1.run = .running := by simp [hr]
    by_cases hp : s.pc = lastAddr
    · refine .inr (.inl ⟨rfl, hp, ?_⟩)
      simp [tick, hr, fetchAndExecute, fetch, hp, State.raise_of_running hb]
    · refine .inr (.inr ⟨rfl, hp, ?_⟩)
      have hf : fetch (beforeFetch c s).1 = (some (fetchedWord c s), fetchedState c s) := by
        simp [fetch, hp, fetchedWord, fetchedState]
      obtain ⟨_, _, _, h⟩ | ⟨_, _, _, h⟩ | ⟨_, _, h⟩ | ⟨_, h⟩ | ⟨_, _, h⟩ :=
        execUnder_cases c (decode (fetchedWord c s)) (fetchedState c s) <;>
        exact ⟨_, h, by simp [tick, hr, fetchAndExecute, hf, executePhase, h]⟩

/-- One step is one cycle of the machine's own configuration. -/
theorem step_eq_next {s t : State} (h : step s = .next t) : ∃ ds, tick config s = .next (t, ds) := by
  unfold step at h
  split at h
  · rename_i e he
    cases h
    exact ⟨e.2, he⟩
  · cases h
  · cases h

/-- A cycle of the machine's own configuration is one step. -/
theorem step_of_tick {s t : State} {ds : List Diagnostic} (h : tick config s = .next (t, ds)) : step s = .next t := by
  simp [step, h]

end Sys2Proof.Machine
end

