-- ==== Sys2Proof/Laws/Encoding.lean ====
section
/-! SUPPORT. The encoding as arithmetic: a word's number from its fields, and each field from the word's number. -/

namespace Sys2Proof

/-- Concatenation as arithmetic. -/
theorem toNat_append_eq {m n : Nat} (a : BitVec m) (b : BitVec n) : (a ++ b).toNat = a.toNat * 2 ^ n + b.toNat := by
  rw [BitVec.toNat_append, ← Nat.shiftLeft_add_eq_or_of_lt b.isLt, Nat.shiftLeft_eq]

theorem opField_toNat (w : Word) : (opField w).toNat = w.toNat / 4096 := by
  have := w.isLt
  simp [opField, Nat.shiftRight_eq_div_pow]; omega

theorem regField1_toNat (w : Word) : (regField1 w).toNat = w.toNat / 256 % 16 := by
  simp [regField1, Nat.shiftRight_eq_div_pow]

theorem regField2_toNat (w : Word) : (regField2 w).toNat = w.toNat / 16 % 16 := by
  simp [regField2, Nat.shiftRight_eq_div_pow]

theorem addr8Field_toNat (w : Word) : (addr8Field w).toNat = w.toNat % 256 := by
  simp [addr8Field]

theorem low12Field_toNat (w : Word) : (low12Field w).toNat = w.toNat % 4096 := by
  simp [low12Field]

/-- Format RA as arithmetic (R82). -/
theorem encode_lod_toNat (r : RegIdx) (a : BitVec 8) :
    (encode (.lod r a)).toNat = 0x1000 + r.toNat * 256 + a.toNat := by
  simp only [encode]; rw [toNat_append_eq, toNat_append_eq]; simp; omega

/-- Format RR as arithmetic (R82). -/
theorem encode_add_toNat (r1 r2 : RegIdx) :
    (encode (.add r1 r2)).toNat = 0x2000 + r1.toNat * 256 + r2.toNat * 16 := by
  simp only [encode]; rw [toNat_append_eq, toNat_append_eq, toNat_append_eq]; simp; omega

/-- Format J as arithmetic (R82). -/
theorem encode_jmp_toNat (a : BitVec 12) : (encode (.jmp a)).toNat = 0x4000 + a.toNat := by
  simp only [encode]; rw [toNat_append_eq]; simp

/-- An opcode and twelve low bits as arithmetic. -/
theorem opLow_toNat (op : BitVec 4) (low : BitVec 12) : (op ++ low : BitVec 16).toNat = op.toNat * 4096 + low.toNat :=
  toNat_append_eq op low

/-- The opcode field of an opcode and twelve low bits. -/
theorem opField_opLow (op : BitVec 4) (low : BitVec 12) : opField (op ++ low) = op := by
  have := low.isLt
  rw [← BitVec.toNat_inj, opField_toNat, opLow_toNat]; omega

/-- The low bits of an opcode and twelve low bits. -/
theorem low12Field_opLow (op : BitVec 4) (low : BitVec 12) : low12Field (op ++ low) = low := by
  have := low.isLt
  rw [← BitVec.toNat_inj, low12Field_toNat, opLow_toNat]; omega

/-- A word is its opcode field and its low bits. -/
theorem opLow_fields (w : Word) : (opField w ++ low12Field w : BitVec 16) = w := by
  rw [← BitVec.toNat_inj, opLow_toNat, opField_toNat, low12Field_toNat]; omega

/-- The opcode field of the four instructions' words. -/
theorem opField_lod (r : RegIdx) (a : BitVec 8) : opField (encode (.lod r a)) = 0x1#4 := by
  have := r.isLt; have := a.isLt
  rw [← BitVec.toNat_inj, opField_toNat, encode_lod_toNat]; simp; omega

theorem opField_add (r1 r2 : RegIdx) : opField (encode (.add r1 r2)) = 0x2#4 := by
  have := r1.isLt; have := r2.isLt
  rw [← BitVec.toNat_inj, opField_toNat, encode_add_toNat]; simp; omega

theorem opField_jmp (a : BitVec 12) : opField (encode (.jmp a)) = 0x4#4 := opField_opLow _ _

/-! ### The decoder by the high nibble -/

theorem decode_nibble1 {w : Word} (h : w.toNat / 4096 = 1) : decode w = .lod (regField1 w) (addr8Field w) := by
  simp [decode, opField_toNat, h]

theorem decode_nibble2 {w : Word} (h : w.toNat / 4096 = 2) : decode w = .add (regField1 w) (regField2 w) := by
  simp [decode, opField_toNat, h]

theorem decode_nibble4 {w : Word} (h : w.toNat / 4096 = 4) : decode w = .jmp (low12Field w) := by
  simp [decode, opField_toNat, h]

theorem decode_nibble15 {w : Word} (h : w.toNat / 4096 = 15) : decode w = .halt := by
  simp [decode, opField_toNat, h]

/-- An illegal instruction's encoding is the word it records, and no bit of it is ignored. -/
theorem encode_illegal {i : Instr} {w : Word} (h : i.illegalWord = some w) : encode i = w ∧ ignoredBits i = 0#16 := by
  cases i <;> simp [Instr.illegalWord, Instr.shape, Shape.illegalWord] at h <;> subst h <;> exact ⟨rfl, rfl⟩

/-! ### The five shapes -/

/-- The shape of an instruction with an illegal word. -/
theorem shape_of_illegalWord {i : Instr} {w : Word} (h : i.illegalWord = some w) : i.shape = .illegal w := by
  simp only [Instr.illegalWord, Shape.illegalWord] at h
  split at h <;> simp_all

end Sys2Proof
end

