-- ==== Sys2Proof/Laws/Invariant.lean ====
section
/-! SUPPORT. The invariant of R40, kept by each phase and each shared operation; a cycle's frame. -/

namespace Sys2Proof.Machine

/-! ### Each operation keeps the canonical form of the arrays and the rest of the invariant -/

theorem raise_inv {s : State} (h : s.Inv) (cause : HaltCause) : (s.raise cause).Inv where
  arrays := ⟨by simpa using h.arrays.mem, by simpa using h.arrays.vb, by simpa using h.arrays.disk, by simpa using h.arrays.store⟩
  timer := by simpa using h.timer
  store := by simpa using h.store
  latch := by simpa using h.latch

theorem setReg_inv {s : State} (h : s.Inv) (r : RegIdx) (v : Word) : (s.setReg r v).Inv :=
  ⟨⟨h.arrays.mem, h.arrays.vb, h.arrays.disk, h.arrays.store⟩, h.timer, h.store, h.latch⟩

theorem setPc_inv {s : State} (h : s.Inv) (pc : Word) : State.Inv { s with pc := pc } :=
  ⟨⟨h.arrays.mem, h.arrays.vb, h.arrays.disk, h.arrays.store⟩, h.timer, h.store, h.latch⟩

theorem loadUnder_inv (c : Config) {s : State} (h : s.Inv) (r : RegIdx) (a : BitVec 8) : (loadUnder c r a s).Inv := by
  by_cases hc : c.lodRomFault = true ∧ a.toNat < c.romSize.val
  · rw [loadUnder_of_stopped s hc]; exact raise_inv h _
  · rw [loadUnder_of_allowed s hc]; exact setReg_inv h _ _

theorem interruptPhase_inv (c : Config) {s : State} (h : s.Inv) : (interruptPhase c s).Inv where
  arrays := by
    refine ⟨by simpa using h.arrays.mem, ?_, by simpa using h.arrays.disk, by simpa using h.arrays.store⟩
    obtain hv | ⟨v, _, _, hv⟩ := interruptPhase_vb c s <;> rw [hv]
    · exact h.arrays.vb
    · exact Cells.wf_write _ (c.kbdCell s).isLt h.arrays.vb
  timer := by simpa using h.timer
  store := by simpa using h.store
  latch := fun hk => absurd (interruptPhase_kbd c h.latch) hk

theorem diskService_inv (c : Config) {s : State} (h : s.Inv) : (diskService c s).1.Inv := by
  have hw := c.winBase.isLt
  simp only [portBase, sectorWords] at hw
  obtain ⟨_, e⟩ | ⟨_, e⟩ | ⟨_, _, e⟩ | ⟨_, hs, e⟩ | ⟨_, _, e⟩ | ⟨_, e⟩ := diskService_cases c s <;> rw [e]
  · exact h
  · exact ⟨⟨Cells.wf_nil _, h.arrays.vb, h.arrays.disk, h.arrays.store⟩, h.timer, h.store, h.latch⟩
  · exact ⟨⟨Cells.wf_copy _ _ (by simp only [portBase, sectorWords]; omega) h.arrays.mem, h.arrays.vb, h.arrays.disk,
      h.arrays.store⟩, h.timer, h.store, h.latch⟩
  · have hd : Cells.wf diskWords (writtenDisk c s) :=
      Cells.wf_copy _ _ (by simp only [sectorBase, diskWords, sectorWords, sectorCount] at *; omega) h.arrays.disk
    exact ⟨⟨h.arrays.mem, h.arrays.vb, hd, hd⟩, h.timer, rfl, h.latch⟩
  · exact ⟨⟨h.arrays.mem, h.arrays.vb, h.arrays.disk, h.arrays.store⟩, h.timer, h.store, h.latch⟩
  · exact ⟨⟨h.arrays.mem, h.arrays.vb, h.arrays.disk, h.arrays.store⟩, h.timer, h.store, h.latch⟩

theorem timerPhase_inv {s : State} (h : s.Inv) : (timerPhase s).Inv := by
  by_cases hr : s.run = .running
  · rw [timerPhase_of_running hr]
    refine ⟨⟨by simpa using h.arrays.mem, by simpa using h.arrays.vb, by simpa using h.arrays.disk,
      by simpa using h.arrays.store⟩, ?_, by simpa using h.store,
      fun hk => timerAdvance_iflag_of_set (h.latch (by simpa using hk))⟩
    rw [timerAdvance_timer h.timer]; omega
  · rwa [timerPhase_of_not_running hr]

theorem memWrite_inv (c : Config) {s : State} (h : s.Inv) (a v : Word) : (memWrite c s a v).Inv := by
  unfold memWrite
  split
  · exact raise_inv h _
  · rename_i hd
    have ha : a.toNat < portBase := by
      by_contra hn
      obtain rfl | rfl | rfl | rfl := port_cases (Nat.le_of_not_lt hn) <;> simp [decodeAddr] at hd
    exact ⟨⟨Cells.wf_write _ ha h.arrays.mem, h.arrays.vb, h.arrays.disk, h.arrays.store⟩, h.timer, h.store, h.latch⟩
  · rename_i p _
    cases p <;> exact ⟨⟨h.arrays.mem, h.arrays.vb, h.arrays.disk, h.arrays.store⟩, h.timer, h.store,
      by first | exact h.latch | simp [writePort]⟩

/-- Execute keeps the invariant. -/
theorem execUnder_inv {c : Config} {i : Instr} {s u : State} (h : s.Inv) (hu : execUnder c i s = .next u) : u.Inv := by
  obtain ⟨_, _, _, e⟩ | ⟨_, _, _, e⟩ | ⟨_, _, e⟩ | ⟨_, e⟩ | ⟨_, _, e⟩ := execUnder_cases c i s <;> rw [e] at hu <;> cases hu
  · exact loadUnder_inv c h _ _
  · exact setReg_inv h _ _
  · exact setPc_inv h _
  · exact raise_inv h _
  · exact raise_inv h _

/-! ### Frames -/

/-- Execute changes nothing but the registers, `pc` and `run`. -/
theorem execUnder_frame {c : Config} {i : Instr} {s u : State} (hu : execUnder c i s = .next u) : s.SameOutside u := by
  have key : ∀ u : State, u.mem = s.mem → u.kbd = s.kbd → u.dcmd = s.dcmd → u.dsec = s.dsec → u.ddat = s.ddat →
      u.timer = s.timer → u.iflag = s.iflag → u.vb = s.vb → u.disk = s.disk → u.store = s.store → s.SameOutside u :=
    fun u m k c d e t f v i j => ⟨m, k, c, d, e, t, f, v, i, j, memRead_congr m k c d e⟩
  obtain ⟨r, a, rfl, g⟩ | ⟨_, _, rfl, g⟩ | ⟨_, rfl, g⟩ | ⟨rfl, g⟩ | ⟨_, _, g⟩ := execUnder_cases c i s <;>
    rw [g] at hu <;> cases hu
  · by_cases hc : c.lodRomFault = true ∧ a.toNat < c.romSize.val
    · rw [loadUnder_of_stopped _ hc]; apply key <;> simp
    · rw [loadUnder_of_allowed _ hc]; apply key <;> simp
  all_goals apply key <;> simp

/-- `exec` changes nothing but the registers, `pc` and `run`. -/
theorem exec_frame {i : Instr} {s u : State} (hu : exec i s = .next u) : s.SameOutside u :=
  execUnder_frame (c := config) (by simpa using hu)

/-- A cycle that fetched, seen from its result. -/
theorem tick_fetched {c : Config} {s t : State} {ds : List Diagnostic} (ht : tick c s = .next (t, ds)) (hr : s.run = .running)
    (hp : s.pc ≠ lastAddr) : ∃ u, execUnder c (decode (fetchedWord c s)) (fetchedState c s) = .next u ∧
      t = timerPhase u ∧ ds = (beforeFetch c s).2 := by
  obtain ⟨_, h, e⟩ | ⟨_, h, e⟩ | ⟨_, h, u, hu, e⟩ := tick_cases c s
  · simp [hr] at h
  · exact absurd h hp
  · rw [ht] at e; simp only [Host.Outcome.next.injEq, Prod.mk.injEq] at e
    exact ⟨u, hu, e.1, e.2⟩

/-- A cycle that overran, seen from its result. -/
theorem tick_overran {c : Config} {s t : State} {ds : List Diagnostic} (ht : tick c s = .next (t, ds)) (hr : s.run = .running)
    (hp : s.pc = lastAddr) :
    t = { (beforeFetch c s).1 with run := .halted (.fetchOverrun lastAddr) } ∧ ds = (beforeFetch c s).2 := by
  obtain ⟨_, h, e⟩ | ⟨_, h, e⟩ | ⟨_, h, u, hu, e⟩ := tick_cases c s
  · simp [hr] at h
  · rw [ht] at e; simp only [Host.Outcome.next.injEq, Prod.mk.injEq] at e; exact e
  · exact absurd hp h

/-- A cycle of a machine that does not run, seen from its result. -/
theorem tick_not_running {c : Config} {s t : State} {ds : List Diagnostic} (ht : tick c s = .next (t, ds))
    (hr : s.run ≠ .running) : t = s ∧ ds = [] := by
  obtain ⟨_, h, e⟩ | ⟨h, _, e⟩ | ⟨h, _, u, hu, e⟩ := tick_cases c s
  · rw [ht] at e; simp only [Host.Outcome.next.injEq, Prod.mk.injEq] at e; exact e
  · exact absurd h hr
  · exact absurd h hr

/-- The cycle of a fetched word, from its execution. -/
theorem tick_of_execUnder {c : Config} {s u : State} (hr : s.run = .running) (hp : s.pc ≠ lastAddr)
    (h : execUnder c (decode (fetchedWord c s)) (fetchedState c s) = .next u) :
    tick c s = .next (timerPhase u, (beforeFetch c s).2) := by
  obtain ⟨_, h', e⟩ | ⟨_, h', e⟩ | ⟨_, h', v, hu, e⟩ := tick_cases c s
  · simp [hr] at h'
  · exact absurd h' hp
  · rw [h] at hu; cases hu; exact e

/-- What the fetch and the instruction of a cycle leave as the interrupt and disk phases did. -/
theorem tick_frame {c : Config} {s t : State} {ds : List Diagnostic} (ht : tick c s = .next (t, ds)) (hr : s.run = .running) :
    t.mem = (beforeFetch c s).1.mem ∧ t.kbd = (beforeFetch c s).1.kbd ∧ t.dcmd = (beforeFetch c s).1.dcmd ∧
      t.dsec = (beforeFetch c s).1.dsec ∧ t.ddat = (beforeFetch c s).1.ddat ∧ t.vb = (beforeFetch c s).1.vb ∧
      t.disk = (beforeFetch c s).1.disk ∧ t.store = (beforeFetch c s).1.store := by
  by_cases hp : s.pc = lastAddr
  · obtain ⟨rfl, -⟩ := tick_overran ht hr hp
    exact ⟨rfl, rfl, rfl, rfl, rfl, rfl, rfl, rfl⟩
  · obtain ⟨u, hu, rfl, -⟩ := tick_fetched ht hr hp
    have f := execUnder_frame hu
    simp only [timerPhase_mem, timerPhase_kbd, timerPhase_dcmd, timerPhase_dsec, timerPhase_ddat, timerPhase_vb,
      timerPhase_disk, timerPhase_store]
    exact ⟨f.mem, f.kbd, f.dcmd, f.dsec, f.ddat, f.vb, f.disk, f.store⟩

@[simp] theorem fetchedState_run (c : Config) (s : State) : (fetchedState c s).run = s.run := by simp [fetchedState]
@[simp] theorem fetchedState_x (c : Config) (s : State) : (fetchedState c s).x = s.x := by simp [fetchedState]
@[simp] theorem fetchedState_pc (c : Config) (s : State) : (fetchedState c s).pc = s.pc + 1#16 := rfl
@[simp] theorem fetchedState_timer (c : Config) (s : State) : (fetchedState c s).timer = s.timer := by simp [fetchedState]
@[simp] theorem fetchedState_iflag (c : Config) (s : State) : (fetchedState c s).iflag = false := by simp [fetchedState]

end Sys2Proof.Machine
end

