-- ==== Sys2Proof/Laws/PerInstr.lean ====
section
/-! SUPPORT. Statements about every instruction as syntax, one lemma per constructor. -/

namespace Sys2Proof.Laws.OpcodeMatch

/-- The instruction's word is an instance of its row of the opcode map: `(w & mask) = match` with `mask = 0xF000` (R84). -/
def Statement (i : Instr) : Prop := encode i &&& 0xF000#16 = matchWord i

/-- The masked word has the number of the opcode field's place. -/
theorem masked_of_opField {w : Word} {op : BitVec 4} (h : opField w = op) : w &&& 0xF000#16 = (op ++ 0#12 : BitVec 16) := by
  subst h
  rw [← opLow_fields w, opField_opLow]
  apply BitVec.eq_of_getLsbD_eq
  intro i hi
  have hm : ∀ j : Fin 16, (0xF000#16).getLsbD j = decide (12 ≤ j.val) := by decide
  have hm := hm ⟨i, hi⟩
  rw [BitVec.getLsbD_and, hm, show (opField w ++ low12Field w : BitVec 16).getLsbD i = _ from BitVec.getLsbD_append,
    show (opField w ++ 0#12 : BitVec 16).getLsbD i = _ from BitVec.getLsbD_append]
  by_cases h : i < 12
  · simp [h]
  · simp [h]; omega

theorem lod (r : RegIdx) (addr8 : BitVec 8) : Statement (.lod r addr8) := masked_of_opField (opField_lod r addr8)

theorem add (r1 r2 : RegIdx) : Statement (.add r1 r2) := masked_of_opField (opField_add r1 r2)

theorem jmp (addr12 : BitVec 12) : Statement (.jmp addr12) := masked_of_opField (opField_jmp addr12)

theorem halt : Statement .halt := masked_of_opField (opField_opLow _ _)

theorem illegal0 (low : BitVec 12) : Statement (.illegal0 low) := masked_of_opField (opField_opLow _ _)

theorem illegal3 (low : BitVec 12) : Statement (.illegal3 low) := masked_of_opField (opField_opLow _ _)

theorem illegal5 (low : BitVec 12) : Statement (.illegal5 low) := masked_of_opField (opField_opLow _ _)

theorem illegal6 (low : BitVec 12) : Statement (.illegal6 low) := masked_of_opField (opField_opLow _ _)

theorem illegal7 (low : BitVec 12) : Statement (.illegal7 low) := masked_of_opField (opField_opLow _ _)

theorem illegal8 (low : BitVec 12) : Statement (.illegal8 low) := masked_of_opField (opField_opLow _ _)

theorem illegal9 (low : BitVec 12) : Statement (.illegal9 low) := masked_of_opField (opField_opLow _ _)

theorem illegalA (low : BitVec 12) : Statement (.illegalA low) := masked_of_opField (opField_opLow _ _)

theorem illegalB (low : BitVec 12) : Statement (.illegalB low) := masked_of_opField (opField_opLow _ _)

theorem illegalC (low : BitVec 12) : Statement (.illegalC low) := masked_of_opField (opField_opLow _ _)

theorem illegalD (low : BitVec 12) : Statement (.illegalD low) := masked_of_opField (opField_opLow _ _)

theorem illegalE (low : BitVec 12) : Statement (.illegalE low) := masked_of_opField (opField_opLow _ _)

end Sys2Proof.Laws.OpcodeMatch
end

