-- ==== Sys2Proof/Tests/Slice0.lean ====
section
/-! SUPPORT. Tests. Expected values come from spec/95_test_vectors.md, by vector name, or from the rule named; then one witness
per statement with hypotheses, at the boundaries of its clauses. -/

namespace Sys2Proof.Tests

open Sys2Proof Sys2Proof.Machine

/-! ### Helpers -/

/-- The next state of an outcome. -/
def after {σ φ ρ : Type} : Host.Outcome σ φ ρ → Option σ
  | .next t => some t
  | .fault _ => none
  | .refused _ => none

theorem exists_such {σ φ ρ : Type} {o : Host.Outcome σ φ ρ} {P : σ → Prop} [DecidablePred P]
    (h : (after o).any (fun t => decide (P t)) = true) : ∃ t, o = .next t ∧ P t := by
  cases o with
  | next t => exact ⟨t, rfl, by simpa [after] using h⟩
  | fault _ => simp [after] at h
  | refused _ => simp [after] at h

theorem exists_next {σ φ ρ : Type} {o : Host.Outcome σ φ ρ} (h : (after o).isSome = true) : ∃ t, o = .next t := by
  cases o with
  | next t => exact ⟨t, rfl⟩
  | fault _ => simp [after] at h
  | refused _ => simp [after] at h

/-- The reset state with a `pc` and some memory words. -/
def start (pc : Word) (mem : Cells) : State := { State.reset with pc := pc, mem := mem }

/-- The reset state with a `pc`, memory words and one register set. -/
def startReg (pc : Word) (mem : Cells) (r : RegIdx) (v : Word) : State := (start pc mem).setReg r v

/-- The source's `JMP 0` loop with a disk command, a sector and a status. -/
def loop (dcmd dsec ddat : Word) : State := { start 0#16 [(0, 0x4000#16)] with dcmd := dcmd, dsec := dsec, ddat := ddat }

/-- One cycle under REF, with its diagnostics. -/
def ticked (s : State) : Option Emitting := after (tick refConfig s)

/-- What a single-cycle vector lists of a cycle under REF: a register, `pc`, `timer` and `run`. -/
def core (r : RegIdx) (s : State) : Option (Word × Word × Word × RunState) :=
  (ticked s).map (fun p => (p.1.reg r, p.1.pc, p.1.timer, p.1.run))

/-! ### Decoder and encoder: words written out from 30_encoding.md R82 and R84 (vectors of 95_test_vectors.md 2.1) -/

theorem test_decode_lod : decode 0x100A#16 = .lod 0 10 ∧ decode 0x1FFF#16 = .lod 15 255 ∧ decode 0x1305#16 = .lod 3 5 := by decide
theorem test_decode_add : decode 0x2001#16 = .add 0 0 ∧ decode 0x2120#16 = .add 1 2 ∧ decode 0x2FEF#16 = .add 15 14 := by decide
theorem test_decode_jmp : decode 0x4000#16 = .jmp 0 ∧ decode 0x4FFF#16 = .jmp 0xFFF ∧ decode 0x4ABC#16 = .jmp 0xABC := by decide
theorem test_decode_halt : decode 0xF000#16 = .halt ∧ decode 0xFFFF#16 = .halt ∧ decode 0xF123#16 = .halt := by decide
theorem test_decode_illegal_low : decode 0x0000#16 = .illegal0 0 ∧ decode 0x0FFF#16 = .illegal0 0xFFF ∧
    decode 0x3001#16 = .illegal3 1 ∧ decode 0x5ABC#16 = .illegal5 0xABC ∧ decode 0x6000#16 = .illegal6 0 ∧
    decode 0x7000#16 = .illegal7 0 ∧ decode 0x8000#16 = .illegal8 0 := by decide
theorem test_decode_illegal_high : decode 0x9000#16 = .illegal9 0 ∧ decode 0xA000#16 = .illegalA 0 ∧ decode 0xB000#16 = .illegalB 0 ∧
    decode 0xC000#16 = .illegalC 0 ∧ decode 0xD000#16 = .illegalD 0 ∧ decode 0xEFFF#16 = .illegalE 0xFFF := by decide
theorem test_decode_shapes : (decode 0x100A#16).shape = .lod 0 10 ∧ (decode 0x2001#16).shape = .add 0 0 ∧
    (decode 0x4ABC#16).shape = .jmp 0xABC ∧ (decode 0xF123#16).shape = .halt ∧ (decode 0x5ABC#16).shape = .illegal 0x5ABC#16 ∧
    decodeInstr 0xEFFF#16 = .illegal 0xEFFF#16 ∧ decodeInstr 0x0000#16 = .illegal 0x0000#16 := by decide
theorem test_canonical_words : encode (decode 0x2001#16) = 0x2000#16 ∧ encode (decode 0x2FEF#16) = 0x2FE0#16 ∧
    encode (decode 0xF123#16) = 0xF000#16 ∧ encode (decode 0x1FFF#16) = 0x1FFF#16 ∧ encode (decode 0x4FFF#16) = 0x4FFF#16 := by decide
theorem test_assemble : assemble (.lod 15 255) = some 0x1FFF#16 ∧ assemble (.add 1 2) = some 0x2120#16 ∧
    assemble (.jmp 4095) = some 0x4FFF#16 ∧ assemble .halt = some 0xF000#16 ∧ assemble (.word 0x5ABC) = some 0x5ABC#16 := by decide

/-! ### Well-formedness: an ill-formed term for each check -/

theorem test_config_refused : checkConfig 65533 1024 (fun _ => 0) false = none ∧ checkConfig 1024 64509 (fun _ => 0) false = none :=
  ⟨rfl, rfl⟩
theorem test_config_accepted : (checkConfig 65532 64508 (fun _ => 0) true).isSome = true ∧
    (checkConfig 0 0 (fun _ => 0) false).isSome = true := by decide
theorem test_lines_refused : (AsmLine.lod 16 0).wf = false ∧ (AsmLine.lod 0 256).wf = false ∧ (AsmLine.add 16 0).wf = false ∧
    (AsmLine.add 0 16).wf = false ∧ (AsmLine.jmp 4096).wf = false ∧ (AsmLine.word 65536).wf = false := by decide
theorem test_refused_lines_have_no_word : assemble (.lod 16 0) = none ∧ assemble (.jmp 4096) = none ∧
    assemble (.word 65536) = none := by decide

/-! ### Instructions -/

/-- V-L2. -/
theorem test_lod_highest : core 15 (start 0 [(0, 0x1FFF#16), (255, 0xABCD#16)]) = some (0xABCD, 1, 1, .running) := by decide
/-- V-L4. -/
theorem test_lod_replaces : core 3 (startReg 0x0FFF [(5, 0x8001#16), (0x0FFF, 0x1305#16)] 3 0x7777) =
    some (0x8001, 0x1000, 1, .running) := by decide
/-- V-L7: the switch set. -/
theorem test_lod_rom_fault : (after (tick { refConfig with lodRomFault := true } (startReg 0 [(0, 0x100A#16), (10, 0x2A#16)] 0 9))).map
    (fun p => (p.1.reg 0, p.1.pc, p.1.timer, p.1.run)) = some (9, 1, 0, .halted (.romAccessViolation 0x000A)) := by decide
/-- V-L8: the first RAM word is below the switch's reach. -/
theorem test_lod_above_rom : (after (tick { refConfig with lodRomFault := true, romSize := 8 } (start 0 [(0, 0x1008#16), (8, 0x22#16)]))).map
    (fun p => (p.1.reg 0, p.1.pc, p.1.timer, p.1.run)) = some (0x22, 1, 1, .running) := by decide
/-- V-A2. -/
theorem test_add_wraps : core 1 ((startReg 0 [(0, 0x2120#16)] 1 0xFFFF).setReg 2 1) = some (0, 1, 1, .running) := by decide
/-- V-A9. -/
theorem test_add_destination_first : core 1 ((startReg 0 [(0, 0x2120#16)] 1 5).setReg 2 3) = some (8, 1, 1, .running) ∧
    core 2 ((startReg 0 [(0, 0x2120#16)] 1 5).setReg 2 3) = some (3, 1, 1, .running) := by decide
/-- V-J4. -/
theorem test_jmp_absolute : core 0 (start 0x2000 [(0x2000, 0x4005#16)]) = some (0, 5, 1, .running) := by decide
/-- V-J7. -/
theorem test_jmp_raises_the_flag : (ticked { start 0 [(0, 0x4000#16)] with timer := 7999 }).map
    (fun p => (p.1.pc, p.1.timer, p.1.iflag)) = some (0, 0, true) := by decide
/-- V-H1. -/
theorem test_halt : core 0 { start 2 [(2, 0xF000#16)] with timer := 2 } = some (0, 3, 2, .halted .haltInstruction) := by decide
/-- V-H3. -/
theorem test_halt_raises_no_flag : (ticked { start 0 [(0, 0xF000#16)] with timer := 7999 }).map
    (fun p => (p.1.timer, p.1.iflag)) = some (7999, false) := by decide
/-- P6 of part 3, and the example of R138. -/
theorem test_illegal_runs_no_timer : core 0 { startReg 2 [(2, 0x3001#16)] 0 14 with timer := 2 } =
    some (14, 3, 2, .halted (.unknownInstruction 0x3001)) ∧
    core 0 (start 7 []) = some (0, 8, 0, .halted (.unknownInstruction 0)) := by decide
/-- R138 on each remaining illegal row, at low bits 0xABC. -/
theorem test_illegal_rows : ∀ n ∈ [0x0, 0x3, 0x5, 0x6, 0x7, 0x8, 0x9, 0xA, 0xB, 0xC, 0xD, 0xE],
    core 0 (start 0 [(0, BitVec.ofNat 16 (n * 4096 + 0xABC))]) =
      some (0, 1, 0, .halted (.unknownInstruction (BitVec.ofNat 16 (n * 4096 + 0xABC)))) := by decide
/-- V-F6, and the second cycle of V-F7. -/
theorem test_fetch_at_ports : core 0 { start 0xFFFE [] with dsec := 0xF000 } = some (0, 0xFFFF, 0, .halted .haltInstruction) ∧
    core 0 { start 0xFFFF [] with ddat := 0x2000, timer := 1 } = some (0, 0xFFFF, 1, .halted (.fetchOverrun 0xFFFF)) := by decide

/-! ### Disk -/

/-- V-D1. -/
theorem test_disk_idle : (ticked (loop 0 0 0x1234)).map (fun p => (p.1.ddat, p.2)) = some (0x1234, []) := by decide
/-- V-D4a. -/
theorem test_disk_invalid_sector : (ticked (loop 2 10 0)).map (fun p => (p.1.ddat, p.1.timer, p.1.run, p.2)) =
    some (1, 1, .running, [.invalidSector 10]) := by decide
/-- V-D6b. -/
theorem test_disk_unknown_command : (ticked (loop 0xFFFF 3 0)).map (fun p => (p.1.ddat, p.1.dcmd, p.2)) =
    some (2, 0xFFFF, [.unknownCommand 0xFFFF]) := by decide
/-- V-D7. -/
theorem test_disk_reset : (ticked { loop 1 7 0 with timer := 5, disk := [(0, 0xAA#16)], vb := [(3, 0x41#16)] }).map
    (fun p => (p.1.mem, p.1.dsec, p.1.pc, p.1.timer, p.1.run)) =
    some ([], 0, 1, 5, .halted (.unknownInstruction 0)) := by decide
/-- V-D2 at the first and the last word of the sector. -/
theorem test_disk_read : (ticked { loop 2 3 0 with disk := [(3072, 1#16), (4095, 1024#16)] }).map
    (fun p => (Cells.read p.1.mem 0x400, Cells.read p.1.mem 0x7FF, p.1.dcmd)) = some (1, 1024, 2) := by decide +kernel
/-- V-D3 at the last word of the last sector. -/
theorem test_disk_write : (ticked { loop 3 9 0 with mem := [(0, 0x4000#16), (0x7FF, 0x83FF#16)] }).map
    (fun p => (Cells.read p.1.disk 10239, Cells.read p.1.store 10239, p.1.ddat)) = some (0x83FF, 0x83FF, 0) := by decide +kernel

/-! ### Interrupt, timer, host -/

/-- V-I1. -/
theorem test_key_is_displayed : (ticked (keyEvent refConfig (loop 0 0 0) 0x41)).map
    (fun p => (p.1.vb, p.1.kbd, p.1.iflag, p.1.timer)) = some ([(0, 0x41#16)], none, false, 1) := by decide
/-- V-I5, first cycle. -/
theorem test_key_and_timer : (ticked (keyEvent refConfig { loop 0 0 0 with timer := 7999 } 0x43)).map
    (fun p => (p.1.kbd, p.1.iflag, p.1.timer)) = some (none, true, 0) := by decide
/-- V-I9. -/
theorem test_configured_cell : vbIndex 24 79 = 1999 ∧
    (after (tick { refConfig with kbdCell := fun _ => 1999 } (keyEvent refConfig (loop 0 0 0) 0x41))).map (fun p => p.1.vb) =
      some [(1999, 0x41#16)] := by decide
/-- V-S2, its ROM and RAM edges. -/
theorem test_rom_gate : (busWrite refConfig (loop 0 0 0) 0x03FF 1).run = .halted (.protectionViolation 0x03FF) ∧
    busRead (busWrite refConfig (loop 0 0 0) 0x0400 0xBEEF) 0x0400 = 0xBEEF ∧
    (busWrite refConfig (loop 0 0 0) 0xFFFE 9).dsec = 9 := by decide
/-- V-B3: the first cause is kept. -/
theorem test_first_cause_kept : (busWrite refConfig (busWrite refConfig (loop 0 0 0) 3 1) 4 1).run =
    .halted (.protectionViolation 3) := by decide
/-- V-R4. -/
theorem test_construct_disk : (construct [0x4000#16] [1#16, 2#16] ⟨[], [], []⟩).disk = [(0, 1#16), (1, 2#16)] := by decide
/-- V-R6. -/
theorem test_image_bytes : imageWords [0x0A#8, 0x10#8, 0x01#8, 0x20#8, 0x00#8, 0xF0#8] = some [0x100A#16, 0x2001#16, 0xF000#16] := by
  decide
/-- The codes of R170. -/
theorem test_cause_codes : [HaltCause.haltInstruction, .unknownInstruction 0, .invalidRegister 16, .romAccessViolation 0,
    .protectionViolation 0, .fetchOverrun 0].map HaltCause.code = [0, 1, 2, 3, 4, 5] := by decide

/-! ### Witnesses -/

/-- Every array listed, a key pending, the timer about to expire, `ADD r1, r2` at `pc`. -/
def busy : State :=
  { (startReg 5 [(5, 0x2120#16), (0x7FF, 9#16)] 1 7).setReg 2 3 with
    kbd := some 0x41#16, iflag := true, timer := 7999#16, ddat := 1#16, vb := [(1999, 1#16)], disk := [(10239, 2#16)],
    store := [(10239, 2#16)] }

/-- `busy` after its run has ended. -/
def stopped : State := { busy with run := .halted .haltInstruction }

/-- A running machine at the last address, whose status port holds the word of `ADD r1, r2`. -/
def overrun : State := { start 0xFFFF [] with ddat := 0x2120#16 }

/-- REF with the switch set. -/
def strict : Config := { refConfig with lodRomFault := true }

/-- The instruction a cycle under REF fetches. -/
def fetched (s : State) : Instr := decode (memRead (beforeFetch refConfig s).1 s.pc)

theorem busy_inv : busy.Inv := ⟨⟨by decide, by decide, by decide, by decide⟩, by decide, rfl, by decide⟩

theorem witness_ConstructGivesTheResetTable : (65531 : Nat) < 65532 ∧ (10239 : Nat) < 10240 ∧ (1999 : Nat) < 2000 ∧
    Cells.read (construct [7#16] [] ⟨[(65531, 8#16), (65532, 9#16)], [], []⟩).mem 65531 = 8#16 := by decide
theorem witness_StepKeepsTheInvariant : busy.Inv ∧ ∃ t, step busy = .next t := ⟨busy_inv, exists_next (by decide)⟩
theorem witness_HostOperationsKeepTheInvariant : busy.Inv ∧ (∃ p, hostStep refConfig .tick busy = .next p) ∧
    (∃ p, hostStep refConfig (.busWrite 0x0400 3) busy = .next p) ∧ ∃ p, hostStep refConfig (.keyEvent 0x42) busy = .next p :=
  ⟨busy_inv, exists_next (by decide), exists_next (by decide), exists_next (by decide)⟩
theorem witness_NoKeyIsPendingAtFetch : busy.kbd ≠ none ∧ busy.iflag = true := by decide
theorem witness_HaltedTickDoesNothing : stopped.run = .halted .haltInstruction := by decide
theorem witness_HaltedIsTerminal : stopped.run = .halted .haltInstruction ∧ (∃ p, hostStep refConfig .tick stopped = .next p) ∧
    (∃ p, hostStep refConfig (.busWrite 0 1) stopped = .next p) ∧ (∀ m d l, HostOp.tick ≠ .construct m d l) ∧
    (∀ m d l, HostOp.busWrite 0 1 ≠ .construct m d l) ∧ (∀ a v, HostOp.tick ≠ .busWrite a v) ∧ ∀ v, HostOp.tick ≠ .keyEvent v :=
  ⟨by decide, exists_next (by decide), exists_next (by decide), nofun, nofun, nofun, nofun⟩
theorem witness_StepRunsTheDecodedInstruction : (busy.run = .running ∧ busy.pc ≠ 0xFFFF#16) ∧
    ((start 0xFFFE []).run = .running ∧ (start 0xFFFE []).pc ≠ 0xFFFF#16 ∧ (start 0xFFFE []).iflag = false ∧
      (start 0xFFFE []).dcmd = 0#16) := by decide
theorem witness_FetchAtTheLastAddressOverruns : (start 0xFFFF []).run = .running ∧ (start 0xFFFF []).pc = 0xFFFF#16 := by decide
theorem witness_EveryCycleAdvancesPcAsTheTableSays :
    (∀ s ∈ [start 0xFFFF [], start 0 [(0, 0x4ABC#16)], start 0xFFFB [(0xFFFB, 0x2120#16)], start 0 [(0, 0x1000#16)], start 0 [(0, 0xF000#16)],
      start 0xFFFE []], s.run = .running ∧ (ticked s).isSome = true) ∧ (start 0xFFFF []).pc = 0xFFFF#16 ∧
    fetched (start 0 [(0, 0x4ABC#16)]) = .jmp 0xABC ∧ fetched (start 0xFFFB [(0xFFFB, 0x2120#16)]) = .add 1 2 ∧
    fetched (start 0 [(0, 0x1000#16)]) = .lod 0 0 ∧ fetched (start 0 [(0, 0xF000#16)]) = .halt ∧
    (fetched (start 0xFFFE [])).illegalWord = some 0#16 := by decide
theorem witness_OnlyLodAndAddWriteARegister : (∃ p, tick refConfig busy = .next p) ∧ (∀ a, fetched busy ≠ .lod 2 a) ∧
    (∀ r2, fetched busy ≠ .add 2 r2) ∧
    ((∃ p, tick refConfig stopped = .next p) ∧ stopped.run ≠ .running ∧ fetched stopped = .add 1 2) ∧
    (∃ p, tick refConfig overrun = .next p) ∧ overrun.pc = 0xFFFF#16 ∧ fetched overrun = .add 1 2 := by
  have e : fetched busy = .add 1 2 := by decide
  rw [e]
  exact ⟨exists_next (by decide), nofun, by decide, ⟨exists_next (by decide), by decide, by decide⟩, exists_next (by decide), by decide,
    by decide⟩
theorem witness_OnlyTheDiskWritesMemoryInACycle : (∃ p, tick refConfig (loop 3 9 0) = .next p) ∧
    ((loop 3 9 0).dcmd ≠ 1#16 ∧ (loop 3 9 0).dcmd ≠ 2#16) ∧
    (∃ p, tick refConfig (loop 2 9 0) = .next p) ∧ (loop 2 9 0).dcmd ≠ 1#16 ∧
    (1023 < refConfig.winBase.val ∧ refConfig.winBase.val + 1024 ≤ 2048) ∧
    (∃ p, tick refConfig (loop 2 10 0) = .next p) ∧ 10 ≤ (loop 2 10 0).dsec.toNat ∧
    (∃ p, tick refConfig (loop 3 10 0) = .next p) ∧ 10 ≤ (loop 3 10 0).dsec.toNat ∧ (loop 2 9 0).dcmd ≠ 3#16 :=
  ⟨exists_next (by decide), by decide, exists_next (by decide +kernel), by decide, by decide, exists_next (by decide), by decide,
    exists_next (by decide), by decide, by decide⟩
theorem witness_OnlyTheInterruptServiceWritesVideo : (∃ p, tick refConfig busy = .next p) ∧ 1 ≠ (refConfig.kbdCell busy).val ∧
    (∃ p, tick refConfig State.reset = .next p) ∧ State.reset.kbd = none ∧ State.reset.iflag = false :=
  ⟨exists_next (by decide), by decide, exists_next (by decide), by decide, by decide⟩
theorem witness_TheTimerCountsContinueCycles :
    (busy.run = .running ∧ busy.timer.toNat < 8000 ∧ ∃ p, tick refConfig busy = .next p ∧ p.1.run = .running) ∧
    ∃ p, tick refConfig (start 0 [(0, 0xF000#16)]) = .next p ∧ p.1.run ≠ .running :=
  ⟨⟨by decide, by decide, exists_such (by decide)⟩, exists_such (by decide)⟩
theorem witness_StepEndsOnlyByThreeCauses : busy.run = .running ∧ ∃ t, step busy = .next t := ⟨by decide, exists_next (by decide)⟩
theorem witness_StateLeftByACycleThatEndsTheRun :
    (∃ p, tick refConfig (start 0xFFFE []) = .next p ∧ p.1.run ≠ .running) ∧ (start 0xFFFE []).run = .running ∧
    (start 0xFFFE []).pc ≠ 0xFFFF#16 ∧ (∃ p, tick refConfig (start 0xFFFF []) = .next p ∧ p.1.run ≠ .running) ∧
    (start 0xFFFF []).run = .running ∧ (start 0xFFFF []).pc = 0xFFFF#16 :=
  ⟨exists_such (by decide), by decide, by decide, exists_such (by decide), by decide, by decide⟩
theorem witness_DecoderFollowsTheHighNibble : (0x1FFF#16).toNat / 4096 = 1 ∧ (0x2FFF#16).toNat / 4096 = 2 ∧ (0x4000#16).toNat / 4096 = 4 ∧
    (0xF000#16).toNat / 4096 = 15 ∧ ∀ n ∈ [0x0FFF, 0x3000, 0x5000, 0xEFFF],
      (BitVec.ofNat 16 n).toNat / 4096 ≠ 1 ∧ (BitVec.ofNat 16 n).toNat / 4096 ≠ 2 ∧ (BitVec.ofNat 16 n).toNat / 4096 ≠ 4 ∧
      (BitVec.ofNat 16 n).toNat / 4096 ≠ 15 := by decide
theorem witness_IgnoredBitsDoNotMatter : (0x2120#16).toNat / 4096 = 2 ∧ (0x2120#16).toNat / 16 = (0x212F#16).toNat / 16 ∧
    (0xF000#16).toNat / 4096 = 15 ∧ (0xFFFF#16).toNat / 4096 = 15 := by decide
theorem witness_LodLoadsTheMemoryWord : (0 : RegIdx) ≠ 15 ∧ busy.run = .running ∧ strict.lodRomFault = true ∧
    (0xFF#8).toNat < strict.romSize.val ∧ refConfig.lodRomFault = false ∧
    ({ strict with romSize := 255 } : Config).romSize.val ≤ (0xFF#8).toNat := by decide
theorem witness_AddIsAdditionModulo65536 : (0 : RegIdx) ≠ 15 ∧ busy.run = .running ∧ (0x2FFF#16).toNat / 4096 = 2 := by decide
theorem witness_JmpSetsThePc : busy.run = .running ∧ (0x4FFF#16).toNat / 4096 = 4 := by decide
theorem witness_HaltEndsTheRunNormally : (start 0xFFFB [(0xFFFB, 0xFFFF#16)]).run = .running ∧
    (start 0xFFFB [(0xFFFB, 0xFFFF#16)]).pc ≠ 0xFFFF#16 ∧
    (memRead (beforeFetch refConfig (start 0xFFFB [(0xFFFB, 0xFFFF#16)])).1 (start 0xFFFB [(0xFFFB, 0xFFFF#16)]).pc).toNat / 4096 = 15 := by
  decide
theorem witness_IllegalWordRaisesUnknownInstruction : (∀ i ∈ [Instr.illegal0 0, .illegal3 0, .illegal5 0, .illegal6 0, .illegal7 0,
      .illegal8 0, .illegal9 0, .illegalA 0, .illegalB 0, .illegalC 0, .illegalD 0, .illegalE 0xFFF], i.illegalWord.isSome = true) ∧
    busy.run = .running ∧ (0xEFFF#16).toNat / 4096 ∉ [1, 2, 4, 15] ∧ (start 0xFFFE []).run = .running ∧
    (start 0xFFFE []).pc ≠ 0xFFFF#16 ∧
    (memRead (beforeFetch refConfig (start 0xFFFE [])).1 (start 0xFFFE []).pc).toNat / 4096 ∉ [1, 2, 4, 15] := by decide
/-- The third line of V-S3. -/
def double : State := start 0 [(0, 0x1F02#16), (1, 0x2FF0#16), (2, 0xFFFF#16)]
theorem witness_LoadThenAddDoublesTheWord : double.run = .running ∧ double.dcmd = 0#16 ∧ double.pc.toNat + 1 < 65532 ∧
    decode (memRead double double.pc) = .lod 15 2 ∧ decode (memRead double (double.pc + 1#16)) = .add 15 15 := by decide
theorem witness_JumpToSelfWaitsForever : (start 0xFFF [(0xFFF, 0x4FFF#16)]).run = .running ∧ (start 0xFFF [(0xFFF, 0x4FFF#16)]).dcmd = 0#16 ∧
    (start 0xFFF [(0xFFF, 0x4FFF#16)]).pc.toNat < 65532 ∧
    decode (memRead (start 0xFFF [(0xFFF, 0x4FFF#16)]) 0xFFF) = .jmp 0xFFF ∧ (0xFFF#12).setWidth 16 = (start 0xFFF [(0xFFF, 0x4FFF#16)]).pc := by
  decide
theorem witness_MemReadByRegion : decodeAddr refConfig 0x03FF = .rom ∧ decodeAddr refConfig 0x0400 = .ram ∧
    decodeAddr refConfig 0xFFFB = .ram ∧ decodeAddr refConfig 0xFFFC = .port .kbd ∧ decodeAddr refConfig 0xFFFD = .port .dcmd ∧
    decodeAddr refConfig 0xFFFE = .port .dsec ∧ decodeAddr refConfig 0xFFFF = .port .ddat ∧ busy.kbd = some 0x41#16 ∧
    State.reset.kbd = none := by decide
theorem witness_MemWriteByRegion : decodeAddr refConfig 0x0000 = .rom ∧ decodeAddr refConfig 0xFFFB = .ram ∧
    decodeAddr refConfig 0xFFFC = .port .kbd ∧ decodeAddr refConfig 0xFFFD = .port .dcmd ∧ decodeAddr refConfig 0xFFFE = .port .dsec ∧
    decodeAddr refConfig 0xFFFF = .port .ddat := by decide
theorem witness_ReadAfterWriteReturnsTheWord : refConfig.romSize.val ≤ (0x0400#16).toNat ∧ 0xFFFF#16 ≠ 0x0400#16 ∧
    (0x03FF#16).toNat < refConfig.romSize.val := by decide
theorem witness_RaiseKeepsTheFirstCause : busy.run = .running ∧ stopped.run = .halted .haltInstruction ∧
    (0x03FF#16).toNat < refConfig.romSize.val := by decide
theorem witness_InterruptServiceIsAFixedAction : busy.kbd = some 0x41#16 ∧ 1999 ≠ (refConfig.kbdCell busy).val ∧
    State.reset.kbd = none := by decide
theorem witness_InterruptServiceClearsTheFlag : State.reset.kbd = none ∧ busy.iflag = true ∧ State.reset.iflag = false := by decide
theorem witness_TimerAdvanceAtTheThreshold : busy.timer = 7999#16 ∧ State.reset.timer ≠ 7999#16 ∧ busy.timer.toNat < 8000 := by decide
theorem witness_KeyEventIsDisplayedByTheNextCycle : busy.run = .running := by decide
theorem witness_IdleDiskDoesNothing : (loop 0 10 2).dcmd = 0#16 := by decide
theorem witness_DiskResetClearsMemory : (loop 1 10 2).dcmd = 1#16 := by decide
theorem witness_DiskReadCopiesTheSector : (loop 2 9 0).dcmd = 2#16 ∧ (loop 2 9 0).dsec.toNat < 10 ∧ (1023 : Nat) < 1024 ∧
    1023 < refConfig.winBase.val ∧ refConfig.winBase.val + 1024 ≤ 2048 := by decide
theorem witness_DiskWriteCopiesTheWindow : (loop 3 9 0).dcmd = 3#16 ∧ (loop 3 9 0).dsec.toNat < 10 ∧ (1023 : Nat) < 1024 ∧
    9215 < (loop 3 9 0).dsec.toNat * 1024 ∧ (loop 3 8 0).dsec.toNat * 1024 + 1024 ≤ 9216 := by decide
theorem witness_InvalidSectorDoesNoTransfer : ((loop 2 10 0).dcmd = 2#16 ∧ 10 ≤ (loop 2 10 0).dsec.toNat) ∧
    ((loop 3 0xFFFF 0).dcmd = 3#16 ∧ 10 ≤ (loop 3 0xFFFF 0).dsec.toNat) := by decide
theorem witness_UnknownCommandIsReported : 4 ≤ (loop 4 0 0).dcmd.toNat ∧ 4 ≤ (loop 0xFFFF 0 0).dcmd.toNat := by decide
theorem witness_DiskServiceLeavesTheCoreAlone : (loop 2 9 0).dcmd ≠ 1#16 ∧ (loop 1 9 0).dcmd = 1#16 ∧ (loop 4 9 0).dcmd ≠ 0#16 := by decide
theorem witness_CommandsRepeatUntilTheHostChangesThem : (∃ p, tick refConfig (loop 2 9 0) = .next p) ∧ (loop 2 9 0).run = .running ∧
    (loop 2 9 0).dcmd ≠ 1#16 ∧ (loop 1 9 0).run = .running ∧ (loop 1 9 0).dcmd = 1#16 ∧
    (∃ p, tick refConfig (loop 2 9 0) = .next p ∧ p.1.run = .running) ∧
    ∃ p, tick refConfig (loop 1 9 0) = .next p ∧ p.1.run ≠ .running :=
  ⟨exists_next (by decide +kernel), by decide, by decide, by decide, by decide, exists_such (by decide +kernel),
    exists_such (by decide)⟩
/-- A state for the second half of the round trip: the disk a `Write` left, nothing else of it. -/
def reread : State := { loop 2 9 0 with disk := (diskService refConfig (loop 3 9 0)).1.disk }
theorem witness_DiskRoundTripRestoresTheWindow : (loop 3 9 0).dsec.toNat < 10 ∧ (loop 3 9 0).dcmd = 3#16 ∧ reread.dcmd = 2#16 ∧
    reread.dsec = (loop 3 9 0).dsec ∧ reread.disk = (diskService refConfig (loop 3 9 0)).1.disk ∧ (1023 : Nat) < 1024 :=
  ⟨by decide, by decide, by simp only [reread, loop]; rfl, by simp only [reread, loop], by simp only [reread], by decide⟩
theorem witness_DiskResetEndsTheRun : ({ busy with dcmd := 1#16 } : State).kbd ≠ none ∧ ({ busy with dcmd := 1#16 } : State).iflag = true ∧
    ({ busy with dcmd := 1#16 } : State).run = .running ∧ ({ busy with dcmd := 1#16 } : State).pc ≠ 0xFFFF#16 ∧
    ({ start 0xFFFF [] with dcmd := 1#16 } : State).kbd = none ∧ ({ start 0xFFFF [] with dcmd := 1#16 } : State).pc = 0xFFFF#16 := by decide
/-- A state whose `pc` is the last word of the disk window, wherever the window is. -/
def inWindow : State := { loop 2 9 0 with pc := BitVec.ofNat 16 (config.winBase.val + 1023) }
theorem witness_FetchSeesTheDiskReadOfItsCycle : inWindow.run = .running ∧ inWindow.dcmd = 2#16 ∧ inWindow.dsec.toNat < 10 ∧
    (1023 : Nat) < 1024 ∧ inWindow.pc.toNat = config.winBase.val + 1023 := by
  refine ⟨rfl, rfl, by decide, by decide, ?_⟩
  have h := config.winBase.isLt
  simp only [portBase, sectorWords] at h
  simp only [inWindow, BitVec.toNat_ofNat]
  omega
theorem witness_PlacedWordIsFetchedNext : (0xFFFF : Nat) < 65536 := by decide
theorem witness_BusWriteAnswersAFaultExactlyForRom : busy.run = .running ∧ (0x03FF#16).toNat < refConfig.romSize.val ∧
    refConfig.romSize.val ≤ (0x0400#16).toNat := by decide
theorem witness_ConfigurationsOutsideTheirConstraintsAreRefused : ∃ c, checkConfig 65532 64508 (fun _ => 0) true = some c :=
  ⟨_, rfl⟩
theorem witness_VideoCellsAreNumberedRowByRow : vbIndex 24 79 = 1999 ∧ vbIndex 0 0 = 0 := by decide
theorem witness_ImageBytesAreLittleEndian : [0x0A#8, 0x10#8, 0x01#8].length % 2 = 1 := by decide
theorem witness_TheFiveShapesAreTheDecodedInstruction : (decode 0x2001#16).shape = (decode 0x200F#16).shape := by decide
theorem witness_ARunEndsNormallyOnlyByHalt : (start 0xFFFF []).run = .running ∧ (∃ t, step (start 0xFFFF []) = .next t) ∧
    (start 0 [(0, 0xF000#16)]).run = .running ∧ ∃ t, step (start 0 [(0, 0xF000#16)]) = .next t :=
  ⟨by decide, exists_next (by decide), by decide, exists_next (by decide)⟩

end Sys2Proof.Tests
end

section
/-! The launch check of a configuration: what it accepts, and what it answers (00_scope.md R10; I2, I5, I35). -/

namespace Sys2Proof

open Sys2Proof.Machine

/-- The two constraints of R10 are what the launch check tests, and nothing else. -/
theorem checkConfig_isSome_iff (romSize winBase : Nat) (kbdCell : State → Fin vbCells) (flag : Bool) :
    (checkConfig romSize winBase kbdCell flag).isSome = true ↔
      romSize ≤ portBase ∧ winBase + sectorWords ≤ portBase := by
  unfold checkConfig
  split
  next hrom =>
    split
    next hwin => exact iff_of_true rfl ⟨hrom, hwin⟩
    next hwin => exact iff_of_false Bool.false_ne_true fun h => hwin h.2
  next hrom => exact iff_of_false Bool.false_ne_true fun h => hrom h.1

/-- An accepted configuration holds the numbers, the cell function and the switch it was asked for. -/
theorem checkConfig_eq_some {romSize winBase : Nat} {kbdCell : State → Fin vbCells} {flag : Bool} {c : Config}
    (h : checkConfig romSize winBase kbdCell flag = some c) :
    c.romSize.val = romSize ∧ c.winBase.val = winBase ∧ c.kbdCell = kbdCell ∧ c.lodRomFault = flag := by
  unfold checkConfig at h
  split at h
  next =>
    split at h
    next =>
      cases h
      exact ⟨rfl, rfl, rfl, rfl⟩
    next => cases h
  next => cases h

/-- Settles O56: the constraints of R10 at this machine's `PORT_BASE` and `SECTOR_WORDS`. -/
theorem configurationsOutsideTheirConstraintsAreRefused :
    Obligations.ConfigurationsOutsideTheirConstraintsAreRefused := by
  unfold Obligations.ConfigurationsOutsideTheirConstraintsAreRefused
  intro romSize winBase kbdCell flag
  exact ⟨checkConfig_isSome_iff romSize winBase kbdCell flag, fun _ accepted => checkConfig_eq_some accepted⟩

end Sys2Proof
end

section
/-! Construction (70_reset_and_hazards.md R210 to R214; 10_state.md R39): what a loaded array reads, and that the machine
starts in the invariant of R40. -/

namespace Sys2Proof

open Sys2Proof.Machine

/-- An image loaded over a launch input: the image where it has a word, the launch input beyond it (R212, R214). -/
theorem read_load_image (bound : Nat) (image : List Word) (launch : Cells) {a : Nat} (ha : a < bound) :
    Cells.read (Cells.load (image.take bound) (launchArray bound launch) 0) a =
      (image[a]?).getD (Cells.read launch a) := by
  rw [Cells.read_load, Cells.read_launchArray bound launch ha]
  by_cases himage : a < image.length
  · simp [ha, himage]
  · simp [himage]

/-- An image cut to the array's size and loaded over a launch input is in canonical form. -/
theorem wf_load_image (bound : Nat) (image : List Word) (launch : Cells) :
    Cells.wf bound (Cells.load (image.take bound) (launchArray bound launch) 0) :=
  Cells.wf_load _ (by simp only [List.length_take]; omega) (Cells.wf_launchArray bound launch)

theorem construct_arrays (memImage diskImage : List Word) (launch : Launch) :
    (construct memImage diskImage launch).Arrays where
  mem := wf_load_image portBase memImage launch.mem
  vb := Cells.wf_launchArray vbCells launch.vb
  disk := wf_load_image diskWords diskImage launch.disk
  store := wf_load_image diskWords diskImage launch.disk

theorem construct_inv (memImage diskImage : List Word) (launch : Launch) :
    (construct memImage diskImage launch).Inv where
  arrays := construct_arrays memImage diskImage launch
  timer := show (0#16).toNat < 8000 by decide
  store := rfl
  latch := fun pending => absurd rfl pending

/-- Construction leaves every register zero. -/
theorem construct_reg (memImage diskImage : List Word) (launch : Launch) (r : RegIdx) :
    (construct memImage diskImage launch).reg r = 0#16 :=
  Vector.getElem_replicate r.isLt

/-- Settles O2: the load of an empty image and the array of an empty launch input are the empty array. -/
theorem resetIsTheReferenceConstruction : Obligations.ResetIsTheReferenceConstruction := by
  unfold Obligations.ResetIsTheReferenceConstruction
  rfl

/-- Settles O3, as a case of construction by O2. -/
theorem resetMeetsTheInvariant : Obligations.ResetMeetsTheInvariant := by
  unfold Obligations.ResetMeetsTheInvariant
  rw [resetIsTheReferenceConstruction]
  exact construct_inv [] [] _

/-- Settles O1: the reset values are written out by `construct`; the arrays read as `read_load_image` says. -/
theorem constructGivesTheResetTable : Obligations.ConstructGivesTheResetTable := by
  unfold Obligations.ConstructGivesTheResetTable
  intro memImage diskImage launch
  exact ⟨construct_reg memImage diskImage launch, rfl, rfl, rfl, rfl, rfl, rfl, rfl, rfl,
    fun _ ha => read_load_image portBase memImage launch.mem ha,
    fun _ hk => read_load_image diskWords diskImage launch.disk hk,
    fun _ hk => Cells.read_launchArray vbCells launch.vb hk,
    rfl, construct_arrays memImage diskImage launch⟩

end Sys2Proof
end

section
/-! The invariant of reachable states (10_state.md R40) along cycles and host operations. -/

namespace Sys2Proof

open Sys2Proof.Machine

/-- The invariant does not speak of the run state. -/
theorem setRun_inv {s : State} (h : s.Inv) (run : RunState) : State.Inv { s with run := run } :=
  ⟨⟨h.arrays.mem, h.arrays.vb, h.arrays.disk, h.arrays.store⟩, h.timer, h.store, h.latch⟩

theorem beforeFetch_inv (c : Config) {s : State} (h : s.Inv) : (beforeFetch c s).1.Inv :=
  diskService_inv c (interruptPhase_inv c h)

/-- One cycle keeps the invariant, in every configuration. -/
theorem tick_inv {c : Config} {s t : State} {ds : List Diagnostic} (h : s.Inv) (ht : tick c s = .next (t, ds)) :
    t.Inv := by
  by_cases hr : s.run = .running
  · by_cases hp : s.pc = lastAddr
    · obtain ⟨rfl, -⟩ := tick_overran ht hr hp
      exact setRun_inv (beforeFetch_inv c h) _
    · obtain ⟨u, hu, rfl, -⟩ := tick_fetched ht hr hp
      have hfetched : (fetchedState c s).Inv := setPc_inv (beforeFetch_inv c h) _
      exact timerPhase_inv (execUnder_inv hfetched hu)
  · obtain ⟨rfl, -⟩ := tick_not_running ht hr
    exact h

/-- The host's `tick` is a cycle, whose diagnostics are its reply. -/
theorem tick_of_hostStep {c : Config} {s t : State} {r : Reply} (h : hostStep c .tick s = .next (t, r)) :
    ∃ ds, tick c s = .next (t, ds) ∧ r = .diagnostics ds := by
  simp only [hostStep] at h
  split at h
  next t' ds htick =>
    cases h
    exact ⟨ds, htick, rfl⟩
  next => cases h
  next => cases h

/-- Settles O4: a step is a cycle of this machine's configuration. -/
theorem stepKeepsTheInvariant : Obligations.StepKeepsTheInvariant := by
  unfold Obligations.StepKeepsTheInvariant
  intro s t h hstep
  obtain ⟨ds, htick⟩ := step_eq_next hstep
  exact tick_inv h htick

/-- Settles O5, by the operation: the reads answer the same state, the writes go through `memWrite`. -/
theorem hostOperationsKeepTheInvariant : Obligations.HostOperationsKeepTheInvariant := by
  unfold Obligations.HostOperationsKeepTheInvariant
  intro c op s t r h hstep
  cases op with
  | tick =>
    obtain ⟨ds, htick, -⟩ := tick_of_hostStep hstep
    exact tick_inv h htick
  | construct memImage diskImage launch => cases hstep; exact construct_inv memImage diskImage launch
  | busWrite a v => cases hstep; exact memWrite_inv c h a v
  | keyEvent v => cases hstep; exact memWrite_inv c h kbdPort v
  | busRead a => cases hstep; exact h
  | readVideo cell => cases hstep; exact h
  | observe => cases hstep; exact h

end Sys2Proof
end

section
/-! What a cycle leaves of the keyboard latch, the registers and the Video Buffer (10_state.md R21, R34, R40(e)). -/

namespace Sys2Proof

open Sys2Proof.Machine

/-- The service of phase 1 empties the latch of a key whose flag is set, and the disk phase does not refill it. -/
theorem beforeFetch_kbd (c : Config) {s : State} (h : s.kbd ≠ none → s.iflag = true) :
    (beforeFetch c s).1.kbd = none := by
  rw [beforeFetch, diskService_kbd, interruptPhase_kbd c h]

/-- The disk phase leaves the Video Buffer to phase 1. -/
theorem beforeFetch_vb (c : Config) (s : State) : (beforeFetch c s).1.vb = (interruptPhase c s).vb :=
  diskService_vb c (interruptPhase c s)

/-- An empty latch reads as zero at its port (D16). -/
theorem memRead_kbdPort_of_empty {s : State} (h : s.kbd = none) : memRead s kbdPort = 0#16 := by
  simp [memRead, readPort, h]

/-- Settles O7: the state the fetch sees is the one phases 1 and 2 leave. -/
theorem noKeyIsPendingAtFetch : Obligations.NoKeyIsPendingAtFetch := by
  unfold Obligations.NoKeyIsPendingAtFetch
  intro c s hlatch
  have hkbd := beforeFetch_kbd c hlatch
  exact ⟨hkbd, beforeFetch_iflag c s, memRead_kbdPort_of_empty hkbd⟩

/-- `LOD` leaves every register but its destination, whether or not the switch stops it. -/
theorem loadUnder_reg_ne (c : Config) {q r : RegIdx} (a : BitVec 8) (s : State) (h : r ≠ q) :
    (loadUnder c q a s).reg r = s.reg r := by
  by_cases hstop : c.lodRomFault = true ∧ a.toNat < c.romSize.val
  · rw [loadUnder_of_stopped s hstop]
    exact State.reg_congr (State.raise_x s _) r
  · rw [loadUnder_of_allowed s hstop, State.reg_setReg_ne s _ h]

/-- Execute leaves a register that is no destination of its `LOD` or `ADD` (R21). -/
theorem execUnder_reg {c : Config} {i : Instr} {s u : State} {r : RegIdx} (hu : execUnder c i s = .next u)
    (hlod : ∀ a, i ≠ .lod r a) (hadd : ∀ r2, i ≠ .add r r2) : u.reg r = s.reg r := by
  obtain ⟨q, a, rfl, e⟩ | ⟨q, r2, rfl, e⟩ | ⟨_, _, e⟩ | ⟨_, e⟩ | ⟨_, _, e⟩ := execUnder_cases c i s <;>
    rw [e] at hu <;> cases hu
  · exact loadUnder_reg_ne c a s fun hq => hlod a (by rw [hq])
  · exact State.reg_setReg_ne s _ fun hq => hadd r2 (by rw [hq])
  · rfl
  · exact State.reg_congr (State.raise_x s _) r
  · exact State.reg_congr (State.raise_x s _) r

/-- Settles O13: of a cycle's phases only execute writes registers. -/
theorem onlyLodAndAddWriteARegister : Obligations.OnlyLodAndAddWriteARegister := by
  unfold Obligations.OnlyLodAndAddWriteARegister
  intro c s t ds r ht hlod hadd
  by_cases hr : s.run = .running
  · by_cases hp : s.pc = lastAddr
    · obtain ⟨rfl, -⟩ := tick_overran ht hr hp
      exact State.reg_congr (beforeFetch_x c s) r
    · obtain ⟨u, hu, rfl, -⟩ := tick_fetched ht hr hp
      calc (timerPhase u).reg r
          _ = u.reg r := State.reg_congr (timerPhase_x u) r
          _ = (fetchedState c s).reg r := execUnder_reg hu (hlod hr hp) (hadd hr hp)
          _ = s.reg r := State.reg_congr (fetchedState_x c s) r
  · obtain ⟨rfl, -⟩ := tick_not_running ht hr
    rfl

/-- Phase 1 leaves every cell but that of a serviced key (R183). -/
theorem read_interruptPhase_vb (c : Config) {s : State} {k : Nat}
    (h : k ≠ (c.kbdCell s).val ∨ s.kbd = none ∨ s.iflag = false) :
    Cells.read (interruptPhase c s).vb k = Cells.read s.vb k := by
  obtain hvb | ⟨v, hflag, hkey, hvb⟩ := interruptPhase_vb c s
  · rw [hvb]
  · have hcell : k ≠ (c.kbdCell s).val := by simpa [hflag, hkey] using h
    rw [hvb, Cells.read_write_ne _ _ hcell]

/-- Settles O15: after phase 1 nothing in a cycle writes the Video Buffer. -/
theorem onlyTheInterruptServiceWritesVideo : Obligations.OnlyTheInterruptServiceWritesVideo := by
  unfold Obligations.OnlyTheInterruptServiceWritesVideo
  intro c s t ds k ht h
  by_cases hr : s.run = .running
  · obtain ⟨-, -, -, -, -, hvb, -, -⟩ := tick_frame ht hr
    rw [hvb, beforeFetch_vb, read_interruptPhase_vb c h]
  · obtain ⟨rfl, -⟩ := tick_not_running ht hr
    rfl

end Sys2Proof
end

section
/-! The numbering of the Video Buffer's cells (10_state.md R34, D4). -/

namespace Sys2Proof

open Sys2Proof.Machine

/-- A cell's row and column are the quotient and the remainder of its number by the row length. -/
theorem vbIndex_eq_iff (row : Fin vbRows) (col : Fin vbCols) (cell : Fin vbCells) :
    vbIndex row col = cell ↔ row.val = cell.val / vbCols ∧ col.val = cell.val % vbCols := by
  have hcol := col.isLt
  simp only [vbIndex, Fin.ext_iff, vbCols] at hcol ⊢
  omega

/-- Settles O57: division with remainder by 80 gives each cell its row and column. -/
theorem videoCellsAreNumberedRowByRow : Obligations.VideoCellsAreNumberedRowByRow := by
  unfold Obligations.VideoCellsAreNumberedRowByRow
  refine ⟨fun row col => rfl, fun cell => ?_⟩
  have hrow : cell.val / vbCols < vbRows := Nat.div_lt_of_lt_mul cell.isLt
  have hcol : cell.val % vbCols < vbCols := Nat.mod_lt _ (by decide)
  refine ⟨⟨cell.val / vbCols, hrow⟩, ⟨cell.val % vbCols, hcol⟩, (vbIndex_eq_iff _ _ cell).2 ⟨rfl, rfl⟩, ?_⟩
  intro row' col' h
  obtain ⟨hrow', hcol'⟩ := (vbIndex_eq_iff row' col' cell).1 h
  exact ⟨Fin.ext hrow', Fin.ext hcol'⟩

end Sys2Proof
end

section
/-! The address decoder and the two access paths, region by region (20_memory.md R53 to R62, R67). -/

namespace Sys2Proof

open Sys2Proof.Machine

/-- The address of a port (R51, D3). -/
def portAddress : Port → Word
  | .kbd => kbdPort
  | .dcmd => dcmdPort
  | .dsec => dsecPort
  | .ddat => ddatPort

theorem portAt_eq_some_iff {a : Word} {p : Port} : portAt a = some p ↔ a = portAddress p := by
  constructor
  · intro h
    unfold portAt at h
    split_ifs at h with hkbd hdcmd hdsec hddat <;> cases h <;> assumption
  · rintro rfl
    cases p <;> decide

/-- Only the addresses below `PORT_BASE` are at no port. -/
theorem portAt_eq_none_iff {a : Word} : portAt a = none ↔ a.toNat < portBase := by
  refine ⟨fun h => ?_, portAt_plain⟩
  by_contra hport
  obtain rfl | rfl | rfl | rfl := port_cases (Nat.le_of_not_lt hport) <;> cases h

theorem decodeAddr_eq_port_iff {c : Config} {a : Word} {p : Port} : decodeAddr c a = .port p ↔ portAt a = some p := by
  refine ⟨fun h => ?_, decodeAddr_port c⟩
  unfold decodeAddr at h
  split at h
  next q hq => cases h; exact hq
  next => split at h <;> cases h

/-- An address that decodes to ROM or RAM is at no port. -/
theorem portAt_of_decodeAddr_plain {c : Config} {a : Word} (h : decodeAddr c a = .rom ∨ decodeAddr c a = .ram) :
    portAt a = none := by
  cases hp : portAt a with
  | none => rfl
  | some p => simp [decodeAddr_port c hp] at h

/-- Settles O33: the port addresses are tested first, and any other address is below `PORT_BASE`. -/
theorem addressesDecodeByTheMap : Obligations.AddressesDecodeByTheMap := by
  unfold Obligations.AddressesDecodeByTheMap
  intro c a
  split_ifs with hkbd hdcmd hdsec hddat hrom
  · rw [hkbd]; exact decodeAddr_port c portAt_kbd
  · rw [hdcmd]; exact decodeAddr_port c portAt_dcmd
  · rw [hdsec]; exact decodeAddr_port c portAt_dsec
  · rw [hddat]; exact decodeAddr_port c portAt_ddat
  · exact decodeAddr_rom c hrom
  · refine decodeAddr_ram c (Nat.le_of_not_lt hrom) (Nat.lt_of_not_le fun hport => ?_)
    obtain h | h | h | h := port_cases hport
    · exact hkbd h
    · exact hdcmd h
    · exact hdsec h
    · exact hddat h

/-! ### Reads -/

theorem memRead_of_port (s : State) {a : Word} {p : Port} (h : portAt a = some p) : memRead s a = readPort s p := by
  rw [memRead, h]

theorem memRead_of_no_port (s : State) {a : Word} (h : portAt a = none) : memRead s a = Cells.read s.mem a.toNat := by
  rw [memRead, h]

/-- Settles O34: a read goes to the port at its address, or to memory where there is none. -/
theorem memReadByRegion : Obligations.MemReadByRegion := by
  unfold Obligations.MemReadByRegion
  intro c s a
  have hport : ∀ p, decodeAddr c a = .port p → memRead s a = readPort s p :=
    fun p h => memRead_of_port s (decodeAddr_eq_port_iff.1 h)
  refine ⟨fun h => memRead_of_no_port s (portAt_of_decodeAddr_plain h), fun h => ⟨fun hempty => ?_, fun v hkey => ?_⟩,
    hport .dcmd, hport .dsec, hport .ddat, rfl⟩
  · rw [hport .kbd h, readPort, hempty, Option.getD_none]
  · rw [hport .kbd h, readPort, hkey, Option.getD_some]

/-! ### Writes -/

theorem memWrite_of_rom {c : Config} {a : Word} (s : State) (v : Word) (h : decodeAddr c a = .rom) :
    memWrite c s a v = s.raise (.protectionViolation a) := by
  rw [memWrite, h]

theorem memWrite_of_ram {c : Config} {a : Word} (s : State) (v : Word) (h : decodeAddr c a = .ram) :
    memWrite c s a v = { s with mem := Cells.write s.mem a.toNat v } := by
  rw [memWrite, h]

theorem memWrite_of_port {c : Config} {a : Word} {p : Port} (s : State) (v : Word) (h : decodeAddr c a = .port p) :
    memWrite c s a v = writePort s p v := by
  rw [memWrite, h]

/-- Settles O35, by the region the address decodes to. -/
theorem memWriteByRegion : Obligations.MemWriteByRegion := by
  unfold Obligations.MemWriteByRegion
  intro c s a v
  refine ⟨fun h => ?_, fun h => ?_, memWrite_of_port s v, memWrite_of_port s v, memWrite_of_port s v,
    memWrite_of_port s v⟩
  · rw [memWrite_of_rom s v h]
    exact ⟨rfl, State.raise_mem s _⟩
  · rw [memWrite_of_ram s v h]
    exact ⟨rfl, fun b => Cells.read_write s.mem a.toNat b v⟩

/-! ### A read after a write -/

theorem readPort_writePort_self (s : State) (p : Port) (v : Word) : readPort (writePort s p v) p = v := by
  cases p <;> rfl

theorem readPort_writePort_ne (s : State) {p q : Port} (v : Word) (h : q ≠ p) :
    readPort (writePort s p v) q = readPort s q := by
  revert h
  cases p <;> cases q <;> simp [readPort, writePort]

theorem writePort_mem (s : State) (p : Port) (v : Word) : (writePort s p v).mem = s.mem := by
  cases p <;> rfl

/-- A fault changes nothing that a read returns. -/
theorem memRead_raise (s : State) (cause : HaltCause) (a : Word) : memRead (s.raise cause) a = memRead s a := by
  apply memRead_congr <;> simp

/-- From `ROM_SIZE` up the word just written is read (R67). -/
theorem memRead_memWrite_self {c : Config} (s : State) {a : Word} (v : Word) (h : c.romSize.val ≤ a.toNat) :
    memRead (memWrite c s a v) a = v := by
  cases hp : portAt a with
  | some p => rw [memWrite_of_port s v (decodeAddr_port c hp), memRead_of_port _ hp, readPort_writePort_self]
  | none =>
    rw [memWrite_of_ram s v (decodeAddr_ram c h (portAt_eq_none_iff.1 hp)), memRead_of_no_port _ hp,
      Cells.read_write_self]

/-- A port write is seen at its own address only. -/
theorem memRead_writePort_ne (s : State) {p : Port} {b : Word} (v : Word) (h : b ≠ portAddress p) :
    memRead (writePort s p v) b = memRead s b := by
  cases hq : portAt b with
  | some q =>
    have hqp : q ≠ p := by
      rintro rfl
      exact h (portAt_eq_some_iff.1 hq)
    rw [memRead_of_port _ hq, memRead_of_port _ hq, readPort_writePort_ne s v hqp]
  | none => rw [memRead_of_no_port _ hq, memRead_of_no_port _ hq, writePort_mem]

/-- A write of plain memory is seen at its own address only. -/
theorem memRead_setMem_ne (s : State) {a b : Word} (v : Word) (h : b ≠ a) :
    memRead { s with mem := Cells.write s.mem a.toNat v } b = memRead s b := by
  cases hq : portAt b with
  | some q => rw [memRead_of_port _ hq, memRead_of_port _ hq]; rfl
  | none =>
    have hne : b.toNat ≠ a.toNat := fun e => h (BitVec.eq_of_toNat_eq e)
    rw [memRead_of_no_port _ hq, memRead_of_no_port _ hq, Cells.read_write_ne _ v hne]

/-- No address but the written one reads differently. -/
theorem memRead_memWrite_ne (c : Config) (s : State) {a b : Word} (v : Word) (h : b ≠ a) :
    memRead (memWrite c s a v) b = memRead s b := by
  cases hd : decodeAddr c a with
  | rom => rw [memWrite_of_rom s v hd, memRead_raise]
  | ram => rw [memWrite_of_ram s v hd, memRead_setMem_ne s v h]
  | port p =>
    obtain rfl := portAt_eq_some_iff.1 (decodeAddr_eq_port_iff.1 hd)
    rw [memWrite_of_port s v hd, memRead_writePort_ne s v h]

/-- No write changes a word of ROM: at the word itself the gate rejects it (R59). -/
theorem memRead_memWrite_rom {c : Config} (s : State) (a v : Word) {b : Word} (h : b.toNat < c.romSize.val) :
    memRead (memWrite c s a v) b = memRead s b := by
  by_cases hb : b = a
  · subst hb
    rw [memWrite_of_rom s v (decodeAddr_rom c h), memRead_raise]
  · exact memRead_memWrite_ne c s v hb

/-- Settles O36. -/
theorem readAfterWriteReturnsTheWord : Obligations.ReadAfterWriteReturnsTheWord := by
  unfold Obligations.ReadAfterWriteReturnsTheWord
  intro c s a v
  exact ⟨memRead_memWrite_self s v, fun _ => memRead_memWrite_ne c s v, fun _ => memRead_memWrite_rom s a v⟩

end Sys2Proof
end

section
/-! The disk phase as the one writer of memory in a cycle (20_memory.md R54, R70; 45_disk_commands.md R158). -/

namespace Sys2Proof

open Sys2Proof.Machine

/-- The disk controller writes memory only by a Reset, or by a Read of a sector there is. -/
theorem diskService_mem (c : Config) {s : State} (hreset : s.dcmd ≠ cmdReset)
    (hread : s.dcmd ≠ cmdRead ∨ sectorCount ≤ s.dsec.toNat) : (diskService c s).1.mem = s.mem := by
  obtain ⟨-, e⟩ | ⟨h, -⟩ | ⟨h, hsec, -⟩ | ⟨-, -, e⟩ | ⟨-, -, e⟩ | ⟨-, e⟩ := diskService_cases c s
  · rw [e]
  · exact absurd h hreset
  · exact absurd hread (not_or.2 ⟨not_not.2 h, Nat.not_le.2 hsec⟩)
  · rw [e]
  · rw [e]; rfl
  · rw [e]; rfl

/-- What a Read of a sector there is leaves in memory (R158). -/
theorem diskService_mem_of_read (c : Config) {s : State} (h : s.dcmd = cmdRead) (hsec : s.dsec.toNat < sectorCount) :
    (diskService c s).1.mem = Cells.copy s.disk (sectorBase s) s.mem c.winBase.val sectorWords := by
  rw [diskService_of_read c h, diskRead, if_pos hsec]

/-- But for a Reset, the disk controller leaves every word outside the memory window. -/
theorem read_diskService_mem_outside (c : Config) {s : State} {a : Nat} (hreset : s.dcmd ≠ cmdReset)
    (ha : a < c.winBase.val ∨ c.winBase.val + sectorWords ≤ a) :
    Cells.read (diskService c s).1.mem a = Cells.read s.mem a := by
  by_cases hread : s.dcmd = cmdRead ∧ s.dsec.toNat < sectorCount
  · obtain ⟨h, hsec⟩ := hread
    rw [diskService_mem_of_read c h hsec, Cells.read_copy, if_neg (by omega)]
  · rw [diskService_mem c hreset ((not_and_or.1 hread).imp_right Nat.le_of_not_lt)]

/-- The disk controller writes the disk and the store only by a Write of a sector there is. -/
theorem diskService_disk_store (c : Config) {s : State} (hwrite : s.dcmd ≠ cmdWrite ∨ sectorCount ≤ s.dsec.toNat) :
    (diskService c s).1.disk = s.disk ∧ (diskService c s).1.store = s.store := by
  obtain ⟨-, e⟩ | ⟨-, e⟩ | ⟨-, -, e⟩ | ⟨h, hsec, -⟩ | ⟨-, -, e⟩ | ⟨-, e⟩ := diskService_cases c s
  · rw [e]; exact ⟨rfl, rfl⟩
  · rw [e]; exact ⟨rfl, rfl⟩
  · rw [e]; exact ⟨rfl, rfl⟩
  · exact absurd hwrite (not_or.2 ⟨not_not.2 h, Nat.not_le.2 hsec⟩)
  · rw [e]; exact ⟨rfl, rfl⟩
  · rw [e]; exact ⟨rfl, rfl⟩

/-- Settles O14: the other phases of a cycle leave memory, disk and store, and phase 1 also the command and the sector. -/
theorem onlyTheDiskWritesMemoryInACycle : Obligations.OnlyTheDiskWritesMemoryInACycle := by
  unfold Obligations.OnlyTheDiskWritesMemoryInACycle
  intro c s t ds ht
  by_cases hr : s.run = .running
  · obtain ⟨hmem, -, -, -, -, -, hdisk, hstore⟩ := tick_frame ht hr
    rw [hmem, hdisk, hstore, beforeFetch, ← interruptPhase_mem c s, ← interruptPhase_dcmd c s,
      ← interruptPhase_dsec c s, ← interruptPhase_disk c s, ← interruptPhase_store c s]
    exact ⟨fun hreset hread => diskService_mem c hreset (.inl hread),
      fun hreset a ha => read_diskService_mem_outside c hreset ha,
      fun hreset hsec => diskService_mem c hreset (.inr hsec),
      diskService_disk_store c⟩
  · obtain ⟨rfl, -⟩ := tick_not_running ht hr
    exact ⟨fun _ _ => rfl, fun _ _ _ => rfl, fun _ _ => rfl, fun _ => ⟨rfl, rfl⟩⟩

/-! ### The fetch of a word the same cycle read from the disk -/

/-- Execute always answers a next state. -/
theorem execUnder_next (c : Config) (i : Instr) (s : State) : ∃ u, execUnder c i s = .next u := by
  obtain ⟨_, _, _, e⟩ | ⟨_, _, _, e⟩ | ⟨_, _, e⟩ | ⟨_, e⟩ | ⟨_, _, e⟩ := execUnder_cases c i s <;> exact ⟨_, e⟩

/-- The memory window lies below the ports (D6). -/
theorem window_lt_portBase (c : Config) {k : Nat} (hk : k < sectorWords) : c.winBase.val + k < portBase := by
  have := c.winBase.isLt
  simp only [portBase, sectorWords] at *
  omega

/-- With a Read pending, word `k` of the memory window is fetched as word `k` of the sector (R70). -/
theorem fetchedWord_of_read {c : Config} {s : State} {k : Nat} (h : s.dcmd = cmdRead)
    (hsec : s.dsec.toNat < sectorCount) (hk : k < sectorWords) (hpc : s.pc.toNat = c.winBase.val + k) :
    fetchedWord c s = Cells.read s.disk (s.dsec.toNat * sectorWords + k) := by
  have hplain : s.pc.toNat < portBase := hpc ▸ window_lt_portBase c hk
  rw [fetchedWord, memRead_plain _ hplain, beforeFetch, diskService_mem_of_read c (by simpa using h) (by simpa using hsec),
    Cells.read_copy, if_pos (by omega), sectorBase, interruptPhase_disk, interruptPhase_dsec, hpc, Nat.add_sub_cancel_left]

/-- Settles O53: the window lies below the ports, so the cycle fetches and its fetched word is the sector's. -/
theorem fetchSeesTheDiskReadOfItsCycle : Obligations.FetchSeesTheDiskReadOfItsCycle := by
  unfold Obligations.FetchSeesTheDiskReadOfItsCycle
  intro s k hr hcmd hsec hk hpc
  have hword : fetchedWord config s = Cells.read s.disk (s.dsec.toNat * 1024 + k) := fetchedWord_of_read hcmd hsec hk hpc
  have hlast : s.pc ≠ lastAddr := by
    intro h
    have hplain := window_lt_portBase config hk
    rw [← hpc, h] at hplain
    exact absurd hplain (by decide)
  obtain ⟨u, hu⟩ := execUnder_next config (decode (fetchedWord config s)) (fetchedState config s)
  refine ⟨u, ?_, step_of_tick (tick_of_execUnder hr hlast hu)⟩
  rw [← hword, ← execUnder_config]
  exact hu

end Sys2Proof
end

section
/-! The byte order of image files (20_memory.md R64, D26). -/

namespace Sys2Proof

open Sys2Proof.Machine

/-- A word is its high byte and its low byte. -/
theorem append_bytes (w : Word) : (w.extractLsb' 8 8 ++ w.extractLsb' 0 8 : BitVec 16) = w := by
  have := w.isLt
  rw [← BitVec.toNat_inj, toNat_append_eq]
  simp [Nat.shiftRight_eq_div_pow]
  omega

/-- The bytes of words, low byte first, are the image of these words. -/
theorem imageWords_bytes (ws : List Word) :
    imageWords (ws.flatMap fun w => [w.extractLsb' 0 8, w.extractLsb' 8 8]) = some ws := by
  induction ws with
  | nil => rfl
  | cons w ws ih => simp [imageWords, ih, append_bytes]

/-- A file of an odd number of bytes is no image. -/
theorem imageWords_odd (bs : List Byte) (h : bs.length % 2 = 1) : imageWords bs = none := by
  induction bs using imageWords.induct with
  | case1 => cases h
  | case2 => rfl
  | case3 lo hi rest ih =>
    have hrest : rest.length % 2 = 1 := by
      simp only [List.length_cons] at h
      omega
    rw [imageWords, ih hrest, Option.map_none]

/-- Settles O58. -/
theorem imageBytesAreLittleEndian : Obligations.ImageBytesAreLittleEndian := by
  unfold Obligations.ImageBytesAreLittleEndian
  exact ⟨imageWords_bytes, imageWords_odd⟩

end Sys2Proof
end

section
/-! The decoder and the encoder against each other, and the five shapes (30_encoding.md R81 to R92). -/

namespace Sys2Proof

/-! ### A word's fields as numbers, and the fields of an encoded instruction -/

theorem regField1_eq_ofNat (w : Word) : regField1 w = BitVec.ofNat 4 (w.toNat / 256) := by
  rw [← BitVec.toNat_inj, regField1_toNat, BitVec.toNat_ofNat]

theorem regField2_eq_ofNat (w : Word) : regField2 w = BitVec.ofNat 4 (w.toNat / 16) := by
  rw [← BitVec.toNat_inj, regField2_toNat, BitVec.toNat_ofNat]

theorem addr8Field_eq_ofNat (w : Word) : addr8Field w = BitVec.ofNat 8 w.toNat := by
  rw [← BitVec.toNat_inj, addr8Field_toNat, BitVec.toNat_ofNat]

theorem low12Field_eq_ofNat (w : Word) : low12Field w = BitVec.ofNat 12 w.toNat := by
  rw [← BitVec.toNat_inj, low12Field_toNat, BitVec.toNat_ofNat]

theorem regField1_encode_lod (r : RegIdx) (a : BitVec 8) : regField1 (encode (.lod r a)) = r := by
  have := r.isLt; have := a.isLt
  rw [← BitVec.toNat_inj, regField1_toNat, encode_lod_toNat]; omega

theorem addr8Field_encode_lod (r : RegIdx) (a : BitVec 8) : addr8Field (encode (.lod r a)) = a := by
  have := a.isLt
  rw [← BitVec.toNat_inj, addr8Field_toNat, encode_lod_toNat]; omega

theorem regField1_encode_add (r1 r2 : RegIdx) : regField1 (encode (.add r1 r2)) = r1 := by
  have := r1.isLt; have := r2.isLt
  rw [← BitVec.toNat_inj, regField1_toNat, encode_add_toNat]; omega

theorem regField2_encode_add (r1 r2 : RegIdx) : regField2 (encode (.add r1 r2)) = r2 := by
  have := r2.isLt
  rw [← BitVec.toNat_inj, regField2_toNat, encode_add_toNat]; omega

/-! ### What the decoder answers -/

/-- The word of an opcode and the low bits, where the opcode is the word's own. -/
theorem opLow_of_opField {w : Word} {op : BitVec 4} (h : (opField w).toNat = op.toNat) : op ++ low12Field w = w := by
  rw [← BitVec.toNat_inj.1 h]
  exact opLow_fields w

/-- Every other nibble is an illegal instruction of the whole word (R86, R89). -/
theorem illegalWord_decode {w : Word} (h1 : w.toNat / 4096 ≠ 1) (h2 : w.toNat / 4096 ≠ 2) (h4 : w.toNat / 4096 ≠ 4)
    (h15 : w.toNat / 4096 ≠ 15) : (decode w).illegalWord = some w := by
  rw [← opField_toNat] at h1 h2 h4 h15
  unfold decode
  split
  case h_2 h => exact absurd h h1
  case h_3 h => exact absurd h h2
  case h_5 h => exact absurd h h4
  case h_15 h => exact absurd h h15
  case h_16 =>
    have hE : (opField w).toNat = (0xE#4).toNat := by
      have := (opField w).isLt
      simp only [imp_false, BitVec.toNat_ofNat] at *
      omega
    exact congrArg some (opLow_of_opField hE)
  all_goals exact congrArg some (opLow_of_opField ‹_›)

/-- Everything the decoder can answer, by the high nibble (R89). -/
theorem decode_cases (w : Word) :
    (w.toNat / 4096 = 1 ∧ decode w = .lod (regField1 w) (addr8Field w)) ∨
    (w.toNat / 4096 = 2 ∧ decode w = .add (regField1 w) (regField2 w)) ∨
    (w.toNat / 4096 = 4 ∧ decode w = .jmp (low12Field w)) ∨
    (w.toNat / 4096 = 15 ∧ decode w = .halt) ∨
    ((w.toNat / 4096 ≠ 1 ∧ w.toNat / 4096 ≠ 2 ∧ w.toNat / 4096 ≠ 4 ∧ w.toNat / 4096 ≠ 15) ∧
      (decode w).illegalWord = some w) := by
  by_cases h1 : w.toNat / 4096 = 1
  · exact .inl ⟨h1, decode_nibble1 h1⟩
  by_cases h2 : w.toNat / 4096 = 2
  · exact .inr (.inl ⟨h2, decode_nibble2 h2⟩)
  by_cases h4 : w.toNat / 4096 = 4
  · exact .inr (.inr (.inl ⟨h4, decode_nibble4 h4⟩))
  by_cases h15 : w.toNat / 4096 = 15
  · exact .inr (.inr (.inr (.inl ⟨h15, decode_nibble15 h15⟩)))
  · exact .inr (.inr (.inr (.inr ⟨⟨h1, h2, h4, h15⟩, illegalWord_decode h1 h2 h4 h15⟩)))

/-- Settles O22. -/
theorem decoderFollowsTheHighNibble : Obligations.DecoderFollowsTheHighNibble := by
  unfold Obligations.DecoderFollowsTheHighNibble
  intro w
  rw [← regField1_eq_ofNat, ← regField2_eq_ofNat, ← addr8Field_eq_ofNat, ← low12Field_eq_ofNat]
  exact ⟨decode_nibble1, decode_nibble2, decode_nibble4, decode_nibble15, illegalWord_decode⟩

/-- Settles O24, by running the decoder on each word. -/
theorem knownWordsDecode : Obligations.KnownWordsDecode := by
  unfold Obligations.KnownWordsDecode
  decide

/-! ### The round trip -/

/-- Settles O19, by the instruction's constructor: its opcode selects the arm, and each field of its word is its operand. -/
theorem decodeOfEncodeIsIdentity : Obligations.DecodeOfEncodeIsIdentity := by
  unfold Obligations.DecodeOfEncodeIsIdentity
  intro i
  cases i with
  | lod r a => simp [decode, opField_lod, regField1_encode_lod, addr8Field_encode_lod]
  | add r1 r2 => simp [decode, opField_add, regField1_encode_add, regField2_encode_add]
  | halt => decide
  | _ low => simp [decode, encode, opField_opLow, low12Field_opLow]

/-- Clearing the low `k` bits of a word, as arithmetic. -/
theorem toNat_and_not_lowMask (w : Word) {m : Word} {k : Nat} (hm : ~~~m = BitVec.allOnes 16 <<< k) :
    (w &&& ~~~m).toNat = w.toNat / 2 ^ k * 2 ^ k := by
  have hle : w.toNat / 2 ^ k * 2 ^ k < 2 ^ 16 := Nat.lt_of_le_of_lt (Nat.div_mul_le_self _ _) w.isLt
  rw [hm, ← BitVec.shiftLeft_ushiftRight, BitVec.toNat_shiftLeft, BitVec.toNat_ushiftRight, Nat.shiftRight_eq_div_pow,
    Nat.shiftLeft_eq, Nat.mod_eq_of_lt hle]

/-- The encoder keeps every bit of a word that its instruction does not ignore, and clears the others (R85, R92). -/
theorem encode_decode (w : Word) : encode (decode w) = w &&& ~~~ignoredBits (decode w) := by
  rcases decode_cases w with ⟨h, hd⟩ | ⟨h, hd⟩ | ⟨h, hd⟩ | ⟨h, hd⟩ | ⟨-, hd⟩
  · rw [hd, ← BitVec.toNat_inj, encode_lod_toNat, regField1_toNat, addr8Field_toNat]
    simp only [ignoredBits, BitVec.not_zero, BitVec.and_allOnes]
    omega
  · rw [hd, ← BitVec.toNat_inj, encode_add_toNat, regField1_toNat, regField2_toNat, ignoredBits,
      toNat_and_not_lowMask (k := 4) w (by decide)]
    omega
  · rw [hd, ← BitVec.toNat_inj, encode_jmp_toNat, low12Field_toNat]
    simp only [ignoredBits, BitVec.not_zero, BitVec.and_allOnes]
    omega
  · rw [hd, ← BitVec.toNat_inj, ignoredBits, toNat_and_not_lowMask (k := 12) w (by decide)]
    simp [encode, h]
  · obtain ⟨hword, hbits⟩ := encode_illegal hd
    rw [hword, hbits, BitVec.not_zero, BitVec.and_allOnes]

/-- Clearing bits keeps a word exactly where they are zero. -/
theorem and_not_eq_self_iff (w m : Word) : w &&& ~~~m = w ↔ w &&& m = 0#16 := by
  constructor
  · intro h
    rw [← h, BitVec.and_assoc, BitVec.not_and_self]
    exact BitVec.and_zero
  · intro h
    calc w &&& ~~~m = (w &&& ~~~m) ||| (w &&& m) := by rw [h, BitVec.or_zero]
      _ = w := by rw [← BitVec.and_or_distrib_left, BitVec.not_or_self, BitVec.and_allOnes]

/-- Settles O20. -/
theorem encodeOfDecodeClearsIgnoredBits : Obligations.EncodeOfDecodeClearsIgnoredBits := by
  unfold Obligations.EncodeOfDecodeClearsIgnoredBits
  intro w
  refine ⟨encode_decode w, ?_⟩
  rw [encode_decode]
  exact and_not_eq_self_iff w _

/-- The encoder leaves every ignored bit zero: its word is the encoding of what it decodes to. -/
theorem encode_and_ignoredBits (i : Instr) : encode i &&& ignoredBits i = 0#16 := by
  have hclear := encode_decode (encode i)
  rw [decodeOfEncodeIsIdentity i] at hclear
  exact (and_not_eq_self_iff _ _).1 hclear.symm

/-- Settles O23: the bits in which the two words differ are in no field of `ADD` and of `HALT`. -/
theorem ignoredBitsDoNotMatter : Obligations.IgnoredBitsDoNotMatter := by
  unfold Obligations.IgnoredBitsDoNotMatter
  intro w v
  refine ⟨fun hw hagree => ?_, fun hw hv => ?_, encode_and_ignoredBits⟩
  · have hv : v.toNat / 4096 = 2 := by omega
    have hr1 : w.toNat / 256 = v.toNat / 256 := by omega
    rw [decode_nibble2 hw, decode_nibble2 hv, regField1_eq_ofNat, regField2_eq_ofNat, hr1, hagree, ← regField1_eq_ofNat,
      ← regField2_eq_ofNat]
  · rw [decode_nibble15 hw, decode_nibble15 hv]

/-! ### The five shapes -/

/-- The word of a shape: its encoding, or the word an illegal shape holds. -/
def Shape.word : Shape → Word
  | .lod r addr8 => encode (.lod r addr8)
  | .add r1 r2 => encode (.add r1 r2)
  | .jmp addr12 => encode (.jmp addr12)
  | .halt => encode .halt
  | .illegal w => w

/-- An instruction's shape has the instruction's word. -/
theorem word_shape (i : Instr) : i.shape.word = encode i := by
  cases i <;> rfl

/-- The shape loses nothing: it still has the instruction's word, and the word decodes to the instruction. -/
theorem shape_injective : Function.Injective Instr.shape := fun i j h =>
  calc i = decode (encode i) := (decodeOfEncodeIsIdentity i).symm
    _ = decode (encode j) := by rw [← word_shape, h, word_shape]
    _ = j := decodeOfEncodeIsIdentity j

/-- The shape of the decoded instruction, by the high nibble (R88, R89). -/
theorem shape_decode_eq_ite (w : Word) : (decode w).shape =
    if w.toNat / 4096 = 1 then .lod (BitVec.ofNat 4 (w.toNat / 256)) (BitVec.ofNat 8 w.toNat)
    else if w.toNat / 4096 = 2 then .add (BitVec.ofNat 4 (w.toNat / 256)) (BitVec.ofNat 4 (w.toNat / 16))
    else if w.toNat / 4096 = 4 then .jmp (BitVec.ofNat 12 w.toNat)
    else if w.toNat / 4096 = 15 then .halt else .illegal w := by
  rw [← regField1_eq_ofNat, ← regField2_eq_ofNat, ← addr8Field_eq_ofNat, ← low12Field_eq_ofNat]
  split_ifs with h1 h2 h4 h15
  · rw [decode_nibble1 h1, Instr.shape]
  · rw [decode_nibble2 h2, Instr.shape]
  · rw [decode_nibble4 h4, Instr.shape]
  · rw [decode_nibble15 h15, Instr.shape]
  · exact shape_of_illegalWord (illegalWord_decode h1 h2 h4 h15)

/-- The decoder into the five shapes gives the decoded instruction's shape. -/
theorem shape_decode (w : Word) : (decode w).shape = decodeInstr w := by
  unfold decodeInstr
  split
  next h => rw [decode_nibble1 (opField_toNat w ▸ h), Instr.shape]
  next h => rw [decode_nibble2 (opField_toNat w ▸ h), Instr.shape]
  next h => rw [decode_nibble4 (opField_toNat w ▸ h), Instr.shape]
  next h => rw [decode_nibble15 (opField_toNat w ▸ h), Instr.shape]
  next h1 h2 h4 h15 =>
    rw [opField_toNat] at h1 h2 h4 h15
    exact shape_of_illegalWord (illegalWord_decode h1 h2 h4 h15)

/-- Settles O60. -/
theorem theFiveShapesAreTheDecodedInstruction : Obligations.TheFiveShapesAreTheDecodedInstruction := by
  unfold Obligations.TheFiveShapesAreTheDecodedInstruction
  exact ⟨shape_decode, fun w => (shape_decode w).symm.trans (shape_decode_eq_ite w), fun _ _ h => shape_injective h⟩

/-! ### The encoder's formulas and the assembler lines -/

theorem encode_lod_ofNat {i a : Nat} (hi : i < 16) (ha : a < 256) :
    encode (.lod (BitVec.ofNat 4 i) (BitVec.ofNat 8 a)) = BitVec.ofNat 16 (0x1000 + i * 256 + a) := by
  rw [← BitVec.toNat_inj, encode_lod_toNat]; simp only [BitVec.toNat_ofNat]; omega

theorem encode_add_ofNat {i j : Nat} (hi : i < 16) (hj : j < 16) :
    encode (.add (BitVec.ofNat 4 i) (BitVec.ofNat 4 j)) = BitVec.ofNat 16 (0x2000 + i * 256 + j * 16) := by
  rw [← BitVec.toNat_inj, encode_add_toNat]; simp only [BitVec.toNat_ofNat]; omega

theorem encode_jmp_ofNat {a : Nat} (ha : a < 4096) : encode (.jmp (BitVec.ofNat 12 a)) = BitVec.ofNat 16 (0x4000 + a) := by
  rw [← BitVec.toNat_inj, encode_jmp_toNat]; simp only [BitVec.toNat_ofNat]; omega

/-- Settles O25: the check of R90 is each line's range of operands, and a line that passes has its format's word. -/
theorem assemblerLinesGiveTheirWords : Obligations.AssemblerLinesGiveTheirWords := by
  unfold Obligations.AssemblerLinesGiveTheirWords
  refine ⟨fun i a => ?_, fun i j => ?_, fun a => ?_, rfl, fun w => ?_⟩ <;>
    simp only [assemble, AsmLine.wf, Bool.and_eq_true, decide_eq_true_eq]
  · exact ite_congr rfl (fun ⟨hi, ha⟩ => congrArg some (encode_lod_ofNat hi ha)) fun _ => rfl
  · exact ite_congr rfl (fun ⟨hi, hj⟩ => congrArg some (encode_add_ofNat hi hj)) fun _ => rfl
  · exact ite_congr rfl (fun ha => congrArg some (encode_jmp_ofNat ha)) fun _ => rfl

/-- Fields that do not overlap are or-ed as they are added. -/
theorem toNat_or_of_disjoint {x y : Word} (k : Nat) (hx : 2 ^ k ∣ x.toNat) (hy : y.toNat < 2 ^ k) :
    (x ||| y).toNat = x.toNat + y.toNat := by
  obtain ⟨q, hq⟩ := hx
  rw [BitVec.toNat_or, hq, ← Nat.two_pow_add_eq_or_of_lt hy]

/-- A register field shifted to its place, as arithmetic. -/
theorem toNat_regField_shiftLeft (r : RegIdx) {k : Nat} (hk : k ≤ 12) : (r.setWidth 16 <<< k).toNat = r.toNat * 2 ^ k := by
  have hlt : r.toNat * 2 ^ k < 2 ^ 16 := calc
    r.toNat * 2 ^ k < 2 ^ 4 * 2 ^ k := Nat.mul_lt_mul_of_pos_right r.isLt (Nat.two_pow_pos k)
    _ ≤ 2 ^ 4 * 2 ^ 12 := Nat.mul_le_mul_left _ (Nat.pow_le_pow_right (by decide) hk)
  rw [BitVec.toNat_shiftLeft, BitVec.toNat_setWidth_of_le (by decide), Nat.shiftLeft_eq, Nat.mod_eq_of_lt hlt]

/-- The opcode and the first register, or-ed at their places. -/
theorem toNat_op_or_regField1 (op : BitVec 4) (r : RegIdx) :
    ((op ++ 0#12 : Word) ||| (r.setWidth 16 <<< 8)).toNat = op.toNat * 4096 + r.toNat * 256 := by
  have hop : (op ++ 0#12 : Word).toNat = op.toNat * 4096 := by
    rw [opLow_toNat, BitVec.toNat_zero, Nat.add_zero]
  have hr : (r.setWidth 16 <<< 8).toNat = r.toNat * 256 := toNat_regField_shiftLeft r (by decide)
  have := r.isLt
  rw [toNat_or_of_disjoint 12 (by omega) (by omega), hop, hr]

theorem encode_lod_eq_or (r : RegIdx) (a : BitVec 8) :
    encode (.lod r a) = 0x1000#16 ||| (r.setWidth 16 <<< 8) ||| a.setWidth 16 := by
  have hop : (0x1000#16 ||| (r.setWidth 16 <<< 8)).toNat = 0x1000 + r.toNat * 256 := toNat_op_or_regField1 0x1#4 r
  have ha : (a.setWidth 16).toNat = a.toNat := BitVec.toNat_setWidth_of_le (by decide)
  rw [← BitVec.toNat_inj, encode_lod_toNat, toNat_or_of_disjoint 8 (by omega) (by omega), hop, ha]

theorem encode_add_eq_or (r1 r2 : RegIdx) :
    encode (.add r1 r2) = 0x2000#16 ||| (r1.setWidth 16 <<< 8) ||| (r2.setWidth 16 <<< 4) := by
  have hop : (0x2000#16 ||| (r1.setWidth 16 <<< 8)).toNat = 0x2000 + r1.toNat * 256 := toNat_op_or_regField1 0x2#4 r1
  have hr2 : (r2.setWidth 16 <<< 4).toNat = r2.toNat * 16 := toNat_regField_shiftLeft r2 (by decide)
  have := r2.isLt
  rw [← BitVec.toNat_inj, encode_add_toNat, toNat_or_of_disjoint 8 (by omega) (by omega), hop, hr2]

theorem encode_jmp_eq_or (a : BitVec 12) : encode (.jmp a) = 0x4000#16 ||| a.setWidth 16 := by
  have ha : (a.setWidth 16).toNat = a.toNat := BitVec.toNat_setWidth_of_le (by decide)
  rw [← BitVec.toNat_inj, encode_jmp_toNat, toNat_or_of_disjoint 12 (by decide) (by omega), ha]
  rfl

/-- Settles O21: the formats' fields do not overlap, so concatenating them is shifting and or-ing them. -/
theorem encoderFormulas : Obligations.EncoderFormulas := by
  unfold Obligations.EncoderFormulas
  exact ⟨encode_lod_eq_or, encode_add_eq_or, encode_jmp_eq_or, rfl⟩

end Sys2Proof
end

section
/-! One cycle from its start to its end (40_cycle.md R100 to R110): that it always answers, how the run can end in it, what
it leaves then, and what the timer counts. -/

namespace Sys2Proof

open Sys2Proof.Machine

/-! ### Every cycle answers a next state -/

theorem tick_of_halted (c : Config) {s : State} {cause : HaltCause} (h : s.run = .halted cause) :
    tick c s = .next (s, []) := by
  rw [tick, h]

theorem tick_of_lastAddr (c : Config) {s : State} (hr : s.run = .running) (hp : s.pc = lastAddr) :
    tick c s = .next ({ (beforeFetch c s).1 with run := .halted (.fetchOverrun lastAddr) }, (beforeFetch c s).2) := by
  obtain ⟨_, h, -⟩ | ⟨-, -, e⟩ | ⟨-, h, -⟩ := tick_cases c s
  · rw [hr] at h
    cases h
  · exact e
  · exact absurd hp h

theorem tick_next (c : Config) (s : State) : ∃ t ds, tick c s = .next (t, ds) := by
  obtain ⟨_, -, e⟩ | ⟨-, -, e⟩ | ⟨-, -, _, -, e⟩ := tick_cases c s <;> exact ⟨_, _, e⟩

/-- Settles O6, by the operation: all but `tick` answer at once, and a cycle always answers. -/
theorem everyHostOperationAnswersNext : Obligations.EveryHostOperationAnswersNext := by
  unfold Obligations.EveryHostOperationAnswersNext
  constructor
  · intro s
    obtain ⟨t, ds, ht⟩ := tick_next config s
    exact ⟨t, step_of_tick ht⟩
  · intro c op s
    cases op with
    | tick =>
      obtain ⟨t, ds, ht⟩ := tick_next c s
      exact ⟨t, .diagnostics ds, by rw [hostStep, ht]⟩
    | construct | busRead | busWrite | keyEvent | readVideo | observe => exact ⟨_, _, rfl⟩

/-- Settles O8. -/
theorem haltedTickDoesNothing : Obligations.HaltedTickDoesNothing := by
  unfold Obligations.HaltedTickDoesNothing
  intro c s cause h
  exact ⟨tick_of_halted c h, step_of_tick (tick_of_halted config h)⟩

/-- Settles O10: the cycle of the fetched word, where execute under the machine's configuration is `exec`. -/
theorem stepRunsTheDecodedInstruction : Obligations.StepRunsTheDecodedInstruction := by
  unfold Obligations.StepRunsTheDecodedInstruction
  intro s hr hp
  obtain ⟨u, hu⟩ := execUnder_next config (decode (fetchedWord config s)) (fetchedState config s)
  have hexec : exec (decode (memRead (beforeFetch config s).1 s.pc))
      { (beforeFetch config s).1 with pc := s.pc + 1#16 } = .next u := by rwa [execUnder_config] at hu
  rw [hexec]
  exact ⟨step_of_tick (tick_of_execUnder hr hp hu), beforeFetch_of_idle config⟩

/-- Settles O11. -/
theorem fetchAtTheLastAddressOverruns : Obligations.FetchAtTheLastAddressOverruns := by
  unfold Obligations.FetchAtTheLastAddressOverruns
  intro c s hr hp
  exact ⟨_, tick_of_lastAddr c hr hp, rfl, (beforeFetch_pc c s).trans hp, beforeFetch_timer c s, beforeFetch_x c s⟩

/-! ### How execute can end the run -/

theorem illegalWord_halt : Instr.halt.illegalWord = none := rfl

/-- An instruction lets the run go on, or it ends it and changes nothing else (R109, R110). -/
theorem execUnder_run_cases {c : Config} {i : Instr} {s u : State} (hr : s.run = .running)
    (hu : execUnder c i s = .next u) :
    (u.run = .running ∧ i ≠ .halt ∧ i.illegalWord = none) ∨
    (i = .halt ∧ u = { s with run := .halted .haltInstruction }) ∨
    (∃ w, i.illegalWord = some w ∧ u = { s with run := .halted (.unknownInstruction w) }) ∨
    (c.lodRomFault = true ∧ ∃ a, u = { s with run := .halted (.romAccessViolation a) }) := by
  obtain ⟨r, a, rfl, e⟩ | ⟨_, _, rfl, e⟩ | ⟨_, rfl, e⟩ | ⟨rfl, e⟩ | ⟨w, hw, e⟩ := execUnder_cases c i s <;>
    rw [e] at hu <;> cases hu
  · by_cases hstop : c.lodRomFault = true ∧ a.toNat < c.romSize.val
    · rw [loadUnder_of_stopped s hstop, State.raise_of_running hr]
      exact .inr (.inr (.inr ⟨hstop.1, _, rfl⟩))
    · rw [loadUnder_of_allowed s hstop]
      exact .inl ⟨hr, nofun, rfl⟩
  · exact .inl ⟨hr, nofun, rfl⟩
  · exact .inl ⟨hr, nofun, rfl⟩
  · exact .inr (.inl ⟨rfl, State.raise_of_running hr _⟩)
  · exact .inr (.inr (.inl ⟨w, hw, State.raise_of_running hr _⟩))

/-- An instruction that ends the run changes nothing but `run` (R109). -/
theorem execUnder_of_ended {c : Config} {i : Instr} {s u : State} (hr : s.run = .running)
    (hu : execUnder c i s = .next u) (hend : u.run ≠ .running) :
    u = { s with run := u.run } ∧
      (u.run = .halted .haltInstruction ∨ (∃ w, u.run = .halted (.unknownInstruction w)) ∨
        ∃ a, u.run = .halted (.romAccessViolation a)) := by
  obtain ⟨h, -⟩ | ⟨-, rfl⟩ | ⟨w, -, rfl⟩ | ⟨-, a, rfl⟩ := execUnder_run_cases hr hu
  · exact absurd h hend
  · exact ⟨rfl, .inl rfl⟩
  · exact ⟨rfl, .inr (.inl ⟨w, rfl⟩)⟩
  · exact ⟨rfl, .inr (.inr ⟨a, rfl⟩)⟩

/-- Settles O18: where execute ended the run, the timer phase does nothing and execute changed `run` alone. -/
theorem stateLeftByACycleThatEndsTheRun : Obligations.StateLeftByACycleThatEndsTheRun := by
  unfold Obligations.StateLeftByACycleThatEndsTheRun
  intro c s t ds hr ht hend
  by_cases hp : s.pc = lastAddr
  · obtain ⟨rfl, hds⟩ := tick_overran ht hr hp
    exact ⟨hds, fun hne => absurd hp hne, fun _ => ⟨rfl, (beforeFetch_pc c s).trans hp⟩, beforeFetch_x c s,
      beforeFetch_timer c s⟩
  · obtain ⟨u, hu, rfl, hds⟩ := tick_fetched ht hr hp
    rw [timerPhase_run] at hend
    rw [timerPhase_of_not_running hend]
    obtain ⟨hleft, hcause⟩ := execUnder_of_ended ((fetchedState_run c s).trans hr) hu hend
    exact ⟨hds, fun _ => ⟨hleft, hcause⟩, fun h => absurd h hp,
      (congrArg State.x hleft).trans (fetchedState_x c s), (congrArg State.timer hleft).trans (fetchedState_timer c s)⟩

theorem ended_iff (t : State) : t.ended ↔ t.endedNormally ∨ t.endedByFault := by
  cases h : t.run with
  | running => simp [State.ended, State.endedNormally, State.endedByFault, h]
  | halted cause => simp [State.ended, State.endedNormally, State.endedByFault, h, em]

/-- Settles O59, by how the cycle ended; no `LOD` of this machine ends the run, whose switch is off (D12). -/
theorem aRunEndsNormallyOnlyByHalt : Obligations.ARunEndsNormallyOnlyByHalt := by
  unfold Obligations.ARunEndsNormallyOnlyByHalt
  intro s t hr hstep i
  obtain ⟨ds, ht⟩ := step_eq_next hstep
  rw [← and_assoc]
  refine ⟨?_, ended_iff t⟩
  by_cases hp : s.pc = 0xFFFF#16
  · obtain ⟨rfl, -⟩ := tick_overran ht hr hp
    simp [State.endedNormally, State.endedByFault, hp]
  · obtain ⟨u, hu, rfl, -⟩ := tick_fetched ht hr hp
    change execUnder config i (fetchedState config s) = .next u at hu
    simp only [State.endedNormally, State.endedByFault, timerPhase_run]
    obtain ⟨hrun, hhalt, hlegal⟩ | ⟨hhalt, rfl⟩ | ⟨w, hw, rfl⟩ | ⟨hswitch, -⟩ :=
      execUnder_run_cases ((fetchedState_run config s).trans hr) hu
    · simp [hrun, hhalt, hlegal, hp]
    · simp [hhalt, illegalWord_halt, hp]
    · have hhalt : i ≠ .halt := by
        intro h
        rw [h, illegalWord_halt] at hw
        cases hw
      simp [hw, hhalt]
    · cases hswitch

/-! ### The timer -/

/-- Settles O16: execute leaves the count and the cleared flag, and the timer phase counts where the machine still runs. -/
theorem theTimerCountsContinueCycles : Obligations.TheTimerCountsContinueCycles := by
  unfold Obligations.TheTimerCountsContinueCycles
  intro c s t ds hr hlt ht
  by_cases hp : s.pc = lastAddr
  · obtain ⟨rfl, -⟩ := tick_overran ht hr hp
    exact ⟨nofun, fun _ => ⟨beforeFetch_timer c s, beforeFetch_iflag c s⟩⟩
  · obtain ⟨u, hu, rfl, -⟩ := tick_fetched ht hr hp
    have htimer : u.timer = s.timer := (execUnder_frame hu).timer.trans (fetchedState_timer c s)
    have hflag : u.iflag = false := (execUnder_frame hu).iflag.trans (fetchedState_iflag c s)
    rw [timerPhase_run, ← htimer]
    rw [← htimer] at hlt
    constructor
    · intro hrun
      rw [timerPhase_of_running hrun]
      exact ⟨timerAdvance_timer hlt, timerAdvance_iflag hlt hflag⟩
    · intro hend
      rw [timerPhase_of_not_running hend]
      exact ⟨rfl, hflag⟩

/-! ### A placed word is fetched -/

theorem withFetchWord_pc_plain (s : State) (nbits w : Nat) : (s.withFetchWord nbits w).pc.toNat < portBase := by
  simp only [State.withFetchWord]
  split
  · assumption
  · decide

/-- No disk command that writes memory is left to overwrite the placed word. -/
theorem withFetchWord_dcmd (s : State) (nbits w : Nat) :
    (s.withFetchWord nbits w).dcmd ≠ cmdReset ∧ (s.withFetchWord nbits w).dcmd ≠ cmdRead := by
  simp only [State.withFetchWord]
  split
  next => decide
  next h => exact not_or.1 h

theorem read_withFetchWord_pc (s : State) (nbits w : Nat) :
    Cells.read (s.withFetchWord nbits w).mem (s.withFetchWord nbits w).pc.toNat = BitVec.ofNat 16 (w % 2 ^ nbits) :=
  Cells.read_write_self _ _ _

theorem beforeFetch_mem (c : Config) {s : State} (hreset : s.dcmd ≠ cmdReset) (hread : s.dcmd ≠ cmdRead) :
    (beforeFetch c s).1.mem = s.mem := by
  rw [beforeFetch, diskService_mem c (by rwa [interruptPhase_dcmd]) (.inl (by rwa [interruptPhase_dcmd])),
    interruptPhase_mem]

/-- Settles O54: neither phase before the fetch writes memory. -/
theorem placedWordIsFetchedNext : Obligations.PlacedWordIsFetchedNext := by
  unfold Obligations.PlacedWordIsFetchedNext
  intro s w hw
  have hplain := withFetchWord_pc_plain s 16 w
  obtain ⟨hreset, hread⟩ := withFetchWord_dcmd s 16 w
  refine ⟨rfl, hplain, ?_⟩
  rw [memRead_plain _ hplain, beforeFetch_mem config hreset hread, read_withFetchWord_pc,
    Nat.mod_eq_of_lt (show w < 2 ^ 16 from hw)]

end Sys2Proof
end

section
/-! `LOD` (41_lod.md): its execution (R120, R121), and the doubling it makes with `ADD` (R124). -/

namespace Sys2Proof

open Sys2Proof.Machine

/-! ### Execution -/

/-- The switch of this machine is clear, so its `LOD` always loads (D12). -/
theorem exec_lod (r : RegIdx) (addr8 : BitVec 8) (s : State) :
    exec (.lod r addr8) s = .next (s.setReg r (Cells.read s.mem addr8.toNat)) :=
  congrArg Host.Outcome.next (loadUnder_config r addr8 s)

theorem exec_add (r1 r2 : RegIdx) (s : State) :
    exec (.add r1 r2) s = .next (s.setReg r1 (addWrap (s.reg r1) (s.reg r2))) := rfl

/-- Settles O26: the load is a register write, and the switch stops it exactly below `ROM_SIZE`. -/
theorem lodLoadsTheMemoryWord : Obligations.LodLoadsTheMemoryWord := by
  unfold Obligations.LodLoadsTheMemoryWord
  intro r addr8 s
  have hexec := exec_lod r addr8 s
  have hreg := State.reg_setReg_self s r (Cells.read s.mem addr8.toNat)
  refine ⟨_, hexec, hreg.trans (memRead_addr8 s addr8).symm, hreg, fun q => State.reg_setReg_ne s _, rfl, rfl,
    exec_frame hexec, fun hrun => timerPhase_of_running hrun,
    fun c => ⟨fun hswitch hrom hrun => ?_, fun hallowed => ?_⟩⟩
  · rw [loadUnder_of_stopped s ⟨hswitch, hrom⟩, State.raise_of_running hrun, addr8Operand]
  · refine loadUnder_of_allowed s fun ⟨hswitch, hrom⟩ => ?_
    obtain hclear | hram := hallowed
    · rw [hclear] at hswitch
      cases hswitch
    · exact absurd hrom (Nat.not_lt.2 hram)

/-! ### Cycles that write one register, with an idle disk -/

/-- What a cycle that writes `v` into register `r`, with an idle disk, leaves of `s` in `t`. -/
structure WritesReg (r : RegIdx) (v : Word) (s t : State) : Prop where
  reg_self : t.reg r = v
  reg_ne : ∀ q, q ≠ r → t.reg q = s.reg q
  pc : t.pc = s.pc + 1#16
  mem : t.mem = s.mem
  dcmd : t.dcmd = s.dcmd
  run : t.run = s.run

/-- With an idle disk, neither phase before the fetch changes memory or the disk command. -/
theorem fetchedState_of_idle (c : Config) {s : State} (hidle : s.dcmd = cmdIdle) :
    (fetchedState c s).mem = s.mem ∧ (fetchedState c s).dcmd = s.dcmd := by
  have hservice : diskService c (interruptPhase c s) = (interruptPhase c s, []) := by
    rw [diskService, interruptPhase_dcmd, if_pos hidle]
  rw [fetchedState, beforeFetch, hservice]
  exact ⟨interruptPhase_mem c s, interruptPhase_dcmd c s⟩

/-- With an idle disk, a word in plain memory is fetched as the cycle began with it. -/
theorem fetchedWord_of_idle (c : Config) {s : State} (hidle : s.dcmd = cmdIdle) (hpc : s.pc.toNat < portBase) :
    fetchedWord c s = memRead s s.pc := by
  have hmem : (beforeFetch c s).1.mem = s.mem := (fetchedState_of_idle c hidle).1
  rw [fetchedWord, memRead_plain _ hpc, memRead_plain _ hpc, hmem]

/-- The timer phase that ends a cycle leaves what a register write left. -/
theorem writesReg_timerPhase (c : Config) {s : State} (r : RegIdx) (v : Word) (hidle : s.dcmd = cmdIdle) :
    WritesReg r v s (timerPhase ((fetchedState c s).setReg r v)) := by
  obtain ⟨hmem, hdcmd⟩ := fetchedState_of_idle c hidle
  have hregs (q : RegIdx) := State.reg_congr (timerPhase_x ((fetchedState c s).setReg r v)) q
  exact {
    reg_self := (hregs r).trans (State.reg_setReg_self _ r v)
    reg_ne := fun q hq => (hregs q).trans
      ((State.reg_setReg_ne _ v hq).trans (State.reg_congr (fetchedState_x c s) q))
    pc := timerPhase_pc _
    mem := (timerPhase_mem _).trans hmem
    dcmd := (timerPhase_dcmd _).trans hdcmd
    run := (timerPhase_run _).trans (fetchedState_run c s) }

/-- The step of an instruction that execute answers by a register write. -/
theorem step_writesReg {s : State} {r : RegIdx} {v : Word} (hrun : s.run = .running) (hidle : s.dcmd = cmdIdle)
    (hpc : s.pc.toNat < portBase)
    (hexec : exec (decode (memRead s s.pc)) (fetchedState config s) = .next ((fetchedState config s).setReg r v)) :
    ∃ t, step s = .next t ∧ WritesReg r v s t := by
  have hlast : s.pc ≠ lastAddr := by
    intro h
    rw [h] at hpc
    exact absurd hpc (by decide)
  rw [← fetchedWord_of_idle config hidle hpc, ← execUnder_config] at hexec
  exact ⟨_, step_of_tick (tick_of_execUnder hrun hlast hexec), writesReg_timerPhase config r v hidle⟩

theorem step_lod {s : State} {r : RegIdx} {addr8 : BitVec 8} (hrun : s.run = .running) (hidle : s.dcmd = cmdIdle)
    (hpc : s.pc.toNat < portBase) (hword : decode (memRead s s.pc) = .lod r addr8) :
    ∃ t, step s = .next t ∧ WritesReg r (Cells.read s.mem addr8.toNat) s t := by
  apply step_writesReg hrun hidle hpc
  rw [hword, exec_lod, (fetchedState_of_idle config hidle).1]

theorem step_add {s : State} {r1 r2 : RegIdx} (hrun : s.run = .running) (hidle : s.dcmd = cmdIdle)
    (hpc : s.pc.toNat < portBase) (hword : decode (memRead s s.pc) = .add r1 r2) :
    ∃ t, step s = .next t ∧ WritesReg r1 (addWrap (s.reg r1) (s.reg r2)) s t := by
  have hregs := State.reg_congr (fetchedState_x config s)
  apply step_writesReg hrun hidle hpc
  rw [hword, exec_add, hregs r1, hregs r2]

/-! ### `LOD` followed by `ADD` -/

theorem addWrap_self_toNat (v : Word) : (addWrap v v).toNat = 2 * v.toNat % 65536 := by
  rw [addWrap, BitVec.toNat_add, ← Nat.two_mul]

/-- Settles O31: the `LOD` leaves memory, the idle disk and the run, so the next cycle fetches the `ADD`. -/
theorem loadThenAddDoublesTheWord : Obligations.LoadThenAddDoublesTheWord := by
  unfold Obligations.LoadThenAddDoublesTheWord
  intro s r addr8 hrun hidle hpc hlod hadd
  have hnext : (s.pc + 1#16).toNat < portBase := by
    simp only [BitVec.toNat_add, BitVec.toNat_ofNat, portBase]
    omega
  obtain ⟨t, hstep, ht⟩ := step_lod hrun hidle (Nat.lt_of_succ_lt hpc) hlod
  have hfetch : memRead t t.pc = memRead s (s.pc + 1#16) := by
    rw [ht.pc, memRead_plain _ hnext, memRead_plain _ hnext, ht.mem]
  obtain ⟨u, hstep', hu⟩ :=
    step_add (ht.run.trans hrun) (ht.dcmd.trans hidle) (by rwa [ht.pc]) (by rwa [hfetch])
  refine ⟨t, u, hstep, hstep', ?_, fun q hq => (hu.reg_ne q hq).trans (ht.reg_ne q hq), ?_, hu.mem.trans ht.mem,
    hu.run.trans (ht.run.trans hrun)⟩
  · rw [hu.reg_self, ht.reg_self, addWrap_self_toNat]
  · rw [hu.pc, ht.pc, BitVec.add_assoc]
    rfl

end Sys2Proof
end

section
/-! `ADD` (42_add.md): its execution (R125), and the words that decode to it. -/

namespace Sys2Proof

open Sys2Proof.Machine

theorem addWrap_toNat (a b : Word) : (addWrap a b).toNat = (a.toNat + b.toNat) % 65536 := by
  rw [addWrap, BitVec.toNat_add]

/-- Bits 3-0 have no part in it. -/
theorem decode_nibble2_eq_ofNat {w : Word} (h : w.toNat / 4096 = 2) :
    decode w = .add (BitVec.ofNat 4 (w.toNat / 256)) (BitVec.ofNat 4 (w.toNat / 16)) := by
  rw [decode_nibble2 h, regField1_eq_ofNat, regField2_eq_ofNat]

/-- Settles O27: `ADD` is one register write, of a sum taken from the state before it, so equal registers are no
case of their own. -/
theorem addIsAdditionModulo65536 : Obligations.AddIsAdditionModulo65536 := by
  unfold Obligations.AddIsAdditionModulo65536
  refine ⟨fun r1 r2 s => ?_, fun _ => decode_nibble2_eq_ofNat⟩
  have hexec := exec_add r1 r2 s
  have hsum : ((s.setReg r1 (addWrap (s.reg r1) (s.reg r2))).reg r1).toNat =
      ((s.reg r1).toNat + (s.reg r2).toNat) % 65536 := by
    rw [State.reg_setReg_self, addWrap_toNat]
  exact ⟨_, hexec, hsum, fun q => State.reg_setReg_ne s _, State.setReg_pc _ _ _, State.setReg_run _ _ _,
    exec_frame hexec, fun hrun => timerPhase_of_running hrun⟩

end Sys2Proof
end

section
/-! `JMP` (43_jmp.md): its execution (R130), how every cycle moves `pc` (R133), and the jump to its own address (R131). -/

namespace Sys2Proof

open Sys2Proof.Machine

/-! ### Execution -/

theorem exec_jmp (addr12 : BitVec 12) (s : State) :
    exec (.jmp addr12) s = .next { s with pc := addr12Operand addr12 } := rfl

/-- The zero-extended low bits are the word under the mask of twelve ones. -/
theorem addr12Operand_low12Field (w : Word) : addr12Operand (low12Field w) = w &&& 0x0FFF#16 := by
  rw [← BitVec.toNat_inj, addr12Operand_toNat, low12Field_toNat, BitVec.toNat_and]
  exact (Nat.and_two_pow_sub_one_eq_mod w.toNat 12).symm

/-- Settles O28: execute writes `pc` alone, and nibble 4 decodes to the `JMP` of the low twelve bits. -/
theorem jmpSetsThePc : Obligations.JmpSetsThePc := by
  unfold Obligations.JmpSetsThePc
  refine ⟨fun addr12 s => ?_, fun w s hw => ?_⟩
  · have hexec := exec_jmp addr12 s
    exact ⟨_, hexec, rfl, rfl, rfl, exec_frame hexec, fun hrun => timerPhase_of_running hrun⟩
  · rw [decode_nibble4 hw]
    exact ⟨_, exec_jmp _ s, addr12Operand_low12Field w⟩

/-! ### How every cycle moves `pc` -/

/-- But for `JMP`, no instruction writes `pc`. -/
theorem execUnder_pc_of_ne_jmp {c : Config} {i : Instr} {s u : State} (hjmp : ∀ a, i ≠ .jmp a)
    (hu : execUnder c i s = .next u) : u.pc = s.pc := by
  obtain ⟨r, a, -, e⟩ | ⟨_, _, -, e⟩ | ⟨a, h, -⟩ | ⟨-, e⟩ | ⟨_, -, e⟩ := execUnder_cases c i s
  case inr.inr.inl => exact absurd h (hjmp a)
  all_goals rw [e] at hu; cases hu
  · by_cases hstop : c.lodRomFault = true ∧ a.toNat < c.romSize.val
    · rw [loadUnder_of_stopped s hstop, State.raise_pc]
    · rw [loadUnder_of_allowed s hstop, State.setReg_pc]
  · exact State.setReg_pc _ _ _
  · exact State.raise_pc _ _
  · exact State.raise_pc _ _

/-- A `LOD` ends the run exactly where the switch stops it. -/
theorem loadUnder_running_iff {c : Config} {s : State} (r : RegIdx) (a : BitVec 8) (hr : s.run = .running) :
    (loadUnder c r a s).run = .running ↔ ¬ (c.lodRomFault = true ∧ a.toNat < c.romSize.val) := by
  constructor
  · intro hrun hstop
    rw [loadUnder_of_stopped s hstop] at hrun
    exact State.raise_run_ne_running _ _ hrun
  · intro hallowed
    rw [loadUnder_of_allowed s hallowed, State.setReg_run, hr]

/-- An illegal instruction raises `UnknownInstruction` with its word (R138). -/
theorem execUnder_of_illegalWord (c : Config) {i : Instr} {w : Word} (s : State) (hw : i.illegalWord = some w) :
    execUnder c i s = .next (s.raise (.unknownInstruction w)) := by
  obtain ⟨_, _, rfl, -⟩ | ⟨_, _, rfl, -⟩ | ⟨_, rfl, -⟩ | ⟨rfl, -⟩ | ⟨w', hw', e⟩ := execUnder_cases c i s
  case inr.inr.inr.inr =>
    rw [hw] at hw'
    cases hw'
    exact e
  all_goals cases hw

/-- Settles O12: past the overrun, each clause is the answer of execute, whose `pc` and `run` the timer phase leaves. -/
theorem everyCycleAdvancesPcAsTheTableSays : Obligations.EveryCycleAdvancesPcAsTheTableSays := by
  unfold Obligations.EveryCycleAdvancesPcAsTheTableSays
  intro c s t ds hr ht i
  by_cases hp : s.pc = lastAddr
  · obtain ⟨rfl, -⟩ := tick_overran ht hr hp
    exact ⟨fun _ => ⟨(beforeFetch_pc c s).trans hp, rfl⟩, fun hne => absurd hp hne⟩
  obtain ⟨u, hu, rfl, -⟩ := tick_fetched ht hr hp
  change execUnder c i (fetchedState c s) = .next u at hu
  have hrun : (fetchedState c s).run = .running := (fetchedState_run c s).trans hr
  rw [timerPhase_pc, timerPhase_run]
  refine ⟨fun h => absurd h hp, fun _ => ⟨fun a hjmp => ?_, fun hne => execUnder_pc_of_ne_jmp hne hu, fun r1 r2 hadd => ?_,
    fun r a hlod => ?_, fun hhalt => ?_, fun w hw => ?_⟩⟩
  · rw [hjmp] at hu
    cases hu
    exact ⟨rfl, hrun⟩
  · rw [hadd] at hu
    cases hu
    exact hrun
  · rw [hlod] at hu
    cases hu
    exact loadUnder_running_iff r a hrun
  · rw [hhalt] at hu
    cases hu
    rw [State.raise_of_running hrun]
  · rw [execUnder_of_illegalWord c _ hw] at hu
    cases hu
    rw [State.raise_of_running hrun]

/-! ### The jump to its own address -/

/-- A step with an idle disk whose word, in plain memory, is a `JMP`. -/
theorem step_jmp {s : State} {addr12 : BitVec 12} (hrun : s.run = .running) (hidle : s.dcmd = cmdIdle)
    (hpc : s.pc.toNat < portBase) (hword : decode (memRead s s.pc) = .jmp addr12) :
    step s = .next (timerPhase { fetchedState config s with pc := addr12Operand addr12 }) := by
  have hlast : s.pc ≠ lastAddr := by
    intro h
    rw [h] at hpc
    exact absurd hpc (by decide)
  have hexec : execUnder config (decode (fetchedWord config s)) (fetchedState config s) =
      .next { fetchedState config s with pc := addr12Operand addr12 } := by
    rw [fetchedWord_of_idle config hidle hpc, hword, execUnder_config, exec_jmp]
  exact step_of_tick (tick_of_execUnder hrun hlast hexec)

/-- What every step of a jump to its own address leaves of the state `s` it began in; the timer and the interrupt flag
move on, and an interrupt may be served. -/
structure StillWaiting (s t : State) : Prop where
  run : t.run = .running
  dcmd : t.dcmd = cmdIdle
  pc : t.pc = s.pc
  x : t.x = s.x
  mem : t.mem = s.mem

theorem stillWaiting_step {s t : State} {addr12 : BitVec 12} (hpc : s.pc.toNat < portBase)
    (hword : decode (memRead s s.pc) = .jmp addr12) (hself : addr12Operand addr12 = s.pc) (ht : StillWaiting s t) :
    ∃ u, step t = .next u ∧ StillWaiting s u := by
  have hfetch : memRead t t.pc = memRead s s.pc := by
    rw [ht.pc, memRead_plain _ hpc, memRead_plain _ hpc, ht.mem]
  have hstep := step_jmp ht.run ht.dcmd (by rwa [ht.pc]) (by rwa [hfetch])
  obtain ⟨hmem, hdcmd⟩ := fetchedState_of_idle config ht.dcmd
  exact ⟨_, hstep, {
    run := (timerPhase_run _).trans ((fetchedState_run config t).trans ht.run)
    dcmd := (timerPhase_dcmd _).trans (hdcmd.trans ht.dcmd)
    pc := (timerPhase_pc _).trans hself
    x := (timerPhase_x _).trans ((fetchedState_x config t).trans ht.x)
    mem := (timerPhase_mem _).trans (hmem.trans ht.mem) }⟩

/-- A property from which every step answers a next state that has it again is answered by any number of steps. -/
theorem steps_next_of_step_next {P : State → Prop} (hstep : ∀ s, P s → ∃ t, step s = .next t ∧ P t) (n : Nat) (s : State)
    (hs : P s) : ∃ t, steps n s = .next t ∧ P t := by
  induction n generalizing s with
  | zero => exact ⟨s, rfl, hs⟩
  | succ n ih =>
    obtain ⟨t, ht, hPt⟩ := hstep s hs
    rw [steps, ht]
    exact ih t hPt

/-- Settles O32: each step leaves the word, `pc` and the idle disk, so the next step is the same jump. -/
theorem jumpToSelfWaitsForever : Obligations.JumpToSelfWaitsForever := by
  unfold Obligations.JumpToSelfWaitsForever
  intro s addr12 hrun hidle hpc hword hself n
  obtain ⟨t, hsteps, ht⟩ := steps_next_of_step_next (fun _ => stillWaiting_step hpc hword hself) n s
    ⟨hrun, hidle, rfl, rfl, rfl⟩
  exact ⟨t, hsteps, ht.run, ht.pc, ht.x, ht.mem⟩

end Sys2Proof
end

section
/-! `HALT` and the illegal opcodes (44_halt_unknown.md): their executions (R135, R138), and the cycles they end. -/

namespace Sys2Proof

open Sys2Proof.Machine

/-! ### The cycle whose instruction raises -/

/-- A cycle whose instruction raises ends with the fetched state halted: the timer phase does nothing (R109). -/
theorem tick_of_raise {c : Config} {s : State} {cause : HaltCause} (hrun : s.run = .running) (hpc : s.pc ≠ lastAddr)
    (hraise : execUnder c (decode (fetchedWord c s)) (fetchedState c s) = .next ((fetchedState c s).raise cause)) :
    tick c s = .next ({ fetchedState c s with run := .halted cause }, (beforeFetch c s).2) := by
  rw [State.raise_of_running ((fetchedState_run c s).trans hrun)] at hraise
  rw [tick_of_execUnder hrun hpc hraise, timerPhase_of_not_running]
  exact nofun

/-! ### `HALT` -/

theorem exec_halt (s : State) : exec .halt s = .next (s.raise .haltInstruction) := rfl

/-- Settles O29: nibble 15 decodes to `HALT`, which raises its cause and does nothing else. -/
theorem haltEndsTheRunNormally : Obligations.HaltEndsTheRunNormally := by
  unfold Obligations.HaltEndsTheRunNormally
  refine ⟨fun s hrun => ?_, fun c s hrun hpc hword => ?_⟩
  · rw [exec_halt, State.raise_of_running hrun]
  · have hdecode : decode (fetchedWord c s) = .halt := decode_nibble15 hword
    have hraise : execUnder c (decode (fetchedWord c s)) (fetchedState c s) =
        .next ((fetchedState c s).raise .haltInstruction) := by
      rw [hdecode]
      rfl
    exact ⟨_, _, tick_of_raise hrun hpc hraise, rfl, fetchedState_timer c s⟩

/-! ### The illegal opcodes -/

theorem exec_of_illegalWord {i : Instr} {w : Word} {s : State} (hw : i.illegalWord = some w) (hrun : s.run = .running) :
    exec i s = .next { s with run := .halted (.unknownInstruction w) } := by
  rw [← execUnder_config, execUnder_of_illegalWord config s hw, State.raise_of_running hrun]

/-- A word of no legal opcode decodes to an illegal instruction of that same word. -/
theorem illegalWord_decode_of_notMem {w : Word} (h : w.toNat / 4096 ∉ [1, 2, 4, 15]) :
    (decode w).illegalWord = some w := by
  simp only [List.mem_cons, List.not_mem_nil, or_false, not_or] at h
  obtain ⟨h1, h2, h4, h15⟩ := h
  exact illegalWord_decode h1 h2 h4 h15

/-- Settles O30: whatever the opcode, an illegal instruction raises `UnknownInstruction` of the word it was decoded
from, under every configuration. -/
theorem illegalWordRaisesUnknownInstruction : Obligations.IllegalWordRaisesUnknownInstruction := by
  unfold Obligations.IllegalWordRaisesUnknownInstruction
  refine ⟨fun i w s => exec_of_illegalWord,
    fun w s hword => exec_of_illegalWord (illegalWord_decode_of_notMem hword), fun c s hrun hpc hword => ?_⟩
  have hillegal : (decode (fetchedWord c s)).illegalWord = some (fetchedWord c s) := illegalWord_decode_of_notMem hword
  exact ⟨_, _, tick_of_raise hrun hpc (execUnder_of_illegalWord c _ hillegal), rfl, fetchedState_timer c s⟩

end Sys2Proof
end

section
/-! The disk commands (45_disk_commands.md): what each command value makes the controller do (R150 to R162), what a cycle
leaves of the command registers (R153), and the two consequences R156 and R164. -/

namespace Sys2Proof

open Sys2Proof.Machine

/-! ### One equation per command -/

theorem diskService_of_idle (c : Config) {s : State} (h : s.dcmd = cmdIdle) : diskService c s = (s, []) := by
  rw [diskService, if_pos h]

theorem diskService_of_read_valid (c : Config) {s : State} (h : s.dcmd = cmdRead) (hsec : s.dsec.toNat < sectorCount) :
    diskService c s =
      ({ s with mem := Cells.copy s.disk (sectorBase s) s.mem c.winBase.val sectorWords, ddat := stOk }, []) := by
  rw [diskService_of_read c h, diskRead, if_pos hsec]

theorem diskService_of_write_valid (c : Config) {s : State} (h : s.dcmd = cmdWrite) (hsec : s.dsec.toNat < sectorCount) :
    diskService c s = ({ s with disk := writtenDisk c s, store := writtenDisk c s, ddat := stOk }, []) := by
  rw [diskService_of_write c h, diskWrite, if_pos hsec]

theorem diskService_of_invalidSector (c : Config) {s : State} (h : s.dcmd = cmdRead ∨ s.dcmd = cmdWrite)
    (hsec : sectorCount ≤ s.dsec.toNat) : diskService c s = invalidSector s := by
  obtain h | h := h
  · rw [diskService_of_read c h, diskRead, if_neg (Nat.not_lt.2 hsec)]
  · rw [diskService_of_write c h, diskWrite, if_neg (Nat.not_lt.2 hsec)]

theorem diskService_of_unknownCommand (c : Config) {s : State} (h : 4 ≤ s.dcmd.toNat) :
    diskService c s = unknownCommand s := by
  have hne : ∀ v : Word, v.toNat < 4 → s.dcmd ≠ v := by
    rintro _ hv rfl
    omega
  rw [diskService, if_neg (hne _ (by decide)), if_neg (hne _ (by decide)), if_neg (hne _ (by decide)),
    if_neg (hne _ (by decide))]

/-! ### The words of a transfer -/

theorem read_copy_inside (src : Cells) (start : Nat) (dst : Cells) (base : Nat) {n k : Nat} (hk : k < n) :
    Cells.read (Cells.copy src start dst base n) (base + k) = Cells.read src (start + k) := by
  rw [Cells.read_copy, if_pos (by omega), Nat.add_sub_cancel_left]

theorem read_copy_outside (src : Cells) (start : Nat) (dst : Cells) {base n a : Nat} (ha : a < base ∨ base + n ≤ a) :
    Cells.read (Cells.copy src start dst base n) a = Cells.read dst a := by
  rw [Cells.read_copy, if_neg (by omega)]

/-- Settles O43. -/
theorem idleDiskDoesNothing : Obligations.IdleDiskDoesNothing := by
  unfold Obligations.IdleDiskDoesNothing
  exact fun c _ => diskService_of_idle c

/-- Settles O44: the cleared memory is the array without entries, whose every word reads as zero. -/
theorem diskResetClearsMemory : Obligations.DiskResetClearsMemory := by
  unfold Obligations.DiskResetClearsMemory
  intro c s h
  exact ⟨_, diskService_of_reset c h, rfl, Cells.wf_nil portBase, Cells.read_nil⟩

/-- Settles O45: a Read copies the sector to the window, which lies below the ports. -/
theorem diskReadCopiesTheSector : Obligations.DiskReadCopiesTheSector := by
  unfold Obligations.DiskReadCopiesTheSector
  intro c s h hsec
  exact ⟨_, diskService_of_read_valid c h hsec, rfl, fun _ hk => read_copy_inside _ _ _ _ hk,
    fun _ ha => read_copy_outside _ _ _ ha, fun _ => window_lt_portBase c⟩

/-- Settles O46: a Write copies the window to the sector, and persists the disk it leaves. -/
theorem diskWriteCopiesTheWindow : Obligations.DiskWriteCopiesTheWindow := by
  unfold Obligations.DiskWriteCopiesTheWindow
  intro c s h hsec
  exact ⟨_, diskService_of_write_valid c h hsec, rfl, fun _ hk => read_copy_inside _ _ _ _ hk,
    fun _ hj => read_copy_outside _ _ _ hj⟩

/-- Settles O47. -/
theorem invalidSectorDoesNoTransfer : Obligations.InvalidSectorDoesNoTransfer := by
  unfold Obligations.InvalidSectorDoesNoTransfer
  exact fun c _ => diskService_of_invalidSector c

/-- Settles O48. -/
theorem unknownCommandIsReported : Obligations.UnknownCommandIsReported := by
  unfold Obligations.UnknownCommandIsReported
  exact fun c _ => diskService_of_unknownCommand c

/-- Settles O51: word `k` of the window after the Read is word `k` of the sector, which the Write took from word `k` of
the window before it. -/
theorem diskRoundTripRestoresTheWindow : Obligations.DiskRoundTripRestoresTheWindow := by
  unfold Obligations.DiskRoundTripRestoresTheWindow
  intro c s u hsec hs hu hsame hdisk k hk
  have hwritten : u.disk = writtenDisk c s := by rw [hdisk, diskService_of_write_valid c hs hsec]
  have hbase : sectorBase u = sectorBase s := by rw [sectorBase, hsame, sectorBase]
  calc Cells.read (diskService c u).1.mem (c.winBase.val + k)
      _ = Cells.read u.disk (sectorBase u + k) := by
        rw [diskService_mem_of_read c hu (hsame ▸ hsec), read_copy_inside _ _ _ _ hk]
      _ = Cells.read (writtenDisk c s) (sectorBase s + k) := by rw [hwritten, hbase]
      _ = Cells.read s.mem (c.winBase.val + k) := read_copy_inside _ _ _ _ hk

/-! ### The frame of the disk phase -/

/-- No command but Reset writes the command and sector registers (R153). -/
theorem diskService_dcmd_dsec (c : Config) {s : State} (h : s.dcmd ≠ cmdReset) :
    (diskService c s).1.dcmd = s.dcmd ∧ (diskService c s).1.dsec = s.dsec := by
  obtain ⟨-, e⟩ | ⟨hreset, -⟩ | ⟨-, -, e⟩ | ⟨-, -, e⟩ | ⟨-, -, e⟩ | ⟨-, e⟩ := diskService_cases c s
  case inr.inl => exact absurd hreset h
  all_goals rw [e]; exact ⟨rfl, rfl⟩

theorem diskService_dcmd_dsec_of_reset (c : Config) {s : State} (h : s.dcmd = cmdReset) :
    (diskService c s).1.dcmd = cmdIdle ∧ (diskService c s).1.dsec = 0#16 := by
  rw [diskService_of_reset c h]
  exact ⟨rfl, rfl⟩

/-- Every command but the idle one reports one of the three status values (R151). -/
theorem diskService_ddat_le (c : Config) {s : State} (h : s.dcmd ≠ cmdIdle) : (diskService c s).1.ddat.toNat ≤ 2 := by
  obtain ⟨hidle, -⟩ | ⟨-, e⟩ | ⟨-, -, e⟩ | ⟨-, -, e⟩ | ⟨-, -, e⟩ | ⟨-, e⟩ := diskService_cases c s
  case inl => exact absurd hidle h
  all_goals rw [e]; exact Nat.le_of_ble_eq_true rfl

theorem diskService_diagnostics_length_le (c : Config) (s : State) : (diskService c s).2.length ≤ 1 := by
  obtain ⟨-, e⟩ | ⟨-, e⟩ | ⟨-, -, e⟩ | ⟨-, -, e⟩ | ⟨-, -, e⟩ | ⟨-, e⟩ := diskService_cases c s <;>
    rw [e] <;> exact Nat.le_of_ble_eq_true rfl

/-- Settles O49. -/
theorem diskServiceLeavesTheCoreAlone : Obligations.DiskServiceLeavesTheCoreAlone := by
  unfold Obligations.DiskServiceLeavesTheCoreAlone
  intro c s
  exact ⟨diskService_x c s, diskService_pc c s, diskService_timer c s, diskService_iflag c s, diskService_kbd c s,
    diskService_vb c s, diskService_run c s, diskService_dcmd_dsec c, diskService_dcmd_dsec_of_reset c,
    diskService_ddat_le c, diskService_diagnostics_length_le c s⟩

/-! ### The command registers along a run -/

/-- The diagnostics of a cycle are those of its disk phase (R108). -/
theorem tick_diagnostics {c : Config} {s t : State} {ds : List Diagnostic} (ht : tick c s = .next (t, ds))
    (hr : s.run = .running) : ds = (beforeFetch c s).2 := by
  by_cases hp : s.pc = lastAddr
  · exact (tick_overran ht hr hp).2
  · obtain ⟨-, -, -, hds⟩ := tick_fetched ht hr hp
    exact hds

theorem tick_dcmd_dsec {c : Config} {s t : State} {ds : List Diagnostic} (ht : tick c s = .next (t, ds))
    (hr : s.run = .running) (h : s.dcmd ≠ cmdReset) : t.dcmd = s.dcmd ∧ t.dsec = s.dsec := by
  obtain ⟨-, -, hdcmd, hdsec, -⟩ := tick_frame ht hr
  rw [hdcmd, hdsec, ← interruptPhase_dcmd c s, ← interruptPhase_dsec c s]
  exact diskService_dcmd_dsec c (by rwa [interruptPhase_dcmd])

theorem tick_dcmd_dsec_of_reset {c : Config} {s t : State} {ds : List Diagnostic} (ht : tick c s = .next (t, ds))
    (hr : s.run = .running) (h : s.dcmd = cmdReset) : t.dcmd = cmdIdle ∧ t.dsec = 0#16 := by
  obtain ⟨-, -, hdcmd, hdsec, -⟩ := tick_frame ht hr
  rw [hdcmd, hdsec]
  exact diskService_dcmd_dsec_of_reset c (by rwa [interruptPhase_dcmd])

/-- A cycle of a running machine leaves memory, disk, store and status as its disk phase does, and emits what that
emits. -/
theorem tick_performs_diskService (c : Config) {t : State} (hr : t.run = .running) :
    ∃ u, tick c t = .next (u, (beforeFetch c t).2) ∧ u.mem = (beforeFetch c t).1.mem ∧
      u.disk = (beforeFetch c t).1.disk ∧ u.store = (beforeFetch c t).1.store ∧ u.ddat = (beforeFetch c t).1.ddat := by
  obtain ⟨u, ds, hu⟩ := tick_next c t
  obtain ⟨hmem, -, -, -, hddat, -, hdisk, hstore⟩ := tick_frame hu hr
  rw [tick_diagnostics hu hr] at hu
  exact ⟨u, hu, hmem, hdisk, hstore, hddat⟩

/-- Settles O50: phase 1 of the next cycle leaves the command and sector registers, so its disk phase sees those this
cycle kept. -/
theorem commandsRepeatUntilTheHostChangesThem : Obligations.CommandsRepeatUntilTheHostChangesThem := by
  unfold Obligations.CommandsRepeatUntilTheHostChangesThem
  intro c s t ds hr ht
  refine ⟨tick_dcmd_dsec ht hr, tick_dcmd_dsec_of_reset ht hr, fun hrun hreset => ?_, fun hend => ?_⟩
  · obtain ⟨hdcmd, hdsec⟩ := tick_dcmd_dsec ht hr hreset
    obtain ⟨u, hu⟩ := tick_performs_diskService c hrun
    exact ⟨interruptPhase c t, u, rfl, (interruptPhase_dcmd c t).trans hdcmd, (interruptPhase_dsec c t).trans hdsec, hu⟩
  · cases hcause : t.run with
    | running => exact absurd hcause hend
    | halted cause => exact tick_of_halted c hcause

/-! ### The cycle of a Reset -/

/-- The state a Reset leaves to the fetch. -/
theorem beforeFetch_of_reset (c : Config) {s : State} (h : s.dcmd = cmdReset) :
    beforeFetch c s = diskReset (interruptPhase c s) :=
  diskService_of_reset c (by rwa [interruptPhase_dcmd])

/-- After a Reset every address reads as zero, the emptied latch and the cleared disk registers included (R156). -/
theorem memRead_diskReset {s : State} (hkbd : s.kbd = none) (a : Word) : memRead (diskReset s).1 a = 0#16 := by
  cases hport : portAt a with
  | none => rw [memRead_of_no_port _ hport, diskReset, Cells.read_nil]
  | some p =>
    rw [memRead_of_port _ hport]
    cases p with
    | kbd => simp [readPort, diskReset, hkbd]
    | dcmd | dsec | ddat => rfl

theorem fetchedWord_of_reset (c : Config) {s : State} (hlatch : s.kbd ≠ none → s.iflag = true) (h : s.dcmd = cmdReset) :
    fetchedWord c s = 0#16 := by
  rw [fetchedWord, beforeFetch_of_reset c h, memRead_diskReset (interruptPhase_kbd c hlatch)]

/-- The word zero has no legal opcode. -/
theorem illegalWord_decode_zero : (decode 0#16).illegalWord = some 0#16 := by decide

/-- Settles O52: the word fetched after a Reset is zero, which is illegal, unless the fetch overran. -/
theorem diskResetEndsTheRun : Obligations.DiskResetEndsTheRun := by
  unfold Obligations.DiskResetEndsTheRun
  intro c s hlatch hr h
  have hsilent : (beforeFetch c s).2 = [] := by rw [beforeFetch_of_reset c h, diskReset]
  by_cases hp : s.pc = lastAddr
  · have ht := tick_of_lastAddr c hr hp
    rw [hsilent] at ht
    exact ⟨_, ht, fun hne => absurd hp hne, fun _ => ⟨rfl, (beforeFetch_pc c s).trans hp⟩⟩
  · have hillegal : (decode (fetchedWord c s)).illegalWord = some 0#16 := by
      rw [fetchedWord_of_reset c hlatch h, illegalWord_decode_zero]
    have ht := tick_of_raise hr hp (execUnder_of_illegalWord c (fetchedState c s) hillegal)
    rw [hsilent] at ht
    exact ⟨_, ht, fun _ => ⟨rfl, rfl⟩, fun hlast => absurd hlast hp⟩

end Sys2Proof
end

section
/-! Faults and host writes (60_exceptions.md R171, R172, R175, R195 to R202): the first cause is kept, the ROM gate answers a
host's write, and a halted machine keeps its core. -/

namespace Sys2Proof

open Sys2Proof.Machine

/-! ### The ROM gate -/

/-- A write to ROM is a fault and nothing else, whatever the word (R58). -/
theorem memWrite_below_romSize {c : Config} (s : State) {a : Word} (v : Word) (h : a.toNat < c.romSize.val) :
    memWrite c s a v = s.raise (.protectionViolation a) :=
  memWrite_of_rom s v (decodeAddr_rom c h)

/-- From `ROM_SIZE` up every address is RAM or a port. -/
theorem decodeAddr_of_romSize_le {c : Config} {a : Word} (h : c.romSize.val ≤ a.toNat) :
    decodeAddr c a = .ram ∨ ∃ p, decodeAddr c a = .port p := by
  cases hp : portAt a with
  | some p => exact .inr ⟨p, decodeAddr_port c hp⟩
  | none => exact .inl (decodeAddr_ram c h (portAt_eq_none_iff.1 hp))

/-- Settles O37: a host's write to ROM is rejected by raising its fault. -/
theorem raiseKeepsTheFirstCause : Obligations.RaiseKeepsTheFirstCause := by
  unfold Obligations.RaiseKeepsTheFirstCause
  intro s cause
  refine ⟨fun hr => State.raise_of_running hr cause, fun _ hr => State.raise_of_halted hr cause, fun c a v hrom => ?_⟩
  rw [busWrite, memWrite_below_romSize s v hrom]
  exact ⟨State.raise_mem s _, State.raise_run_ne_running s _⟩

theorem writePort_run (s : State) (p : Port) (v : Word) : (writePort s p v).run = s.run := by
  cases p <;> rfl

/-- A write the gate lets through never ends the run. -/
theorem memWrite_run_of_romSize_le {c : Config} (s : State) {a : Word} (v : Word) (h : c.romSize.val ≤ a.toNat) :
    (memWrite c s a v).run = s.run := by
  obtain hram | ⟨p, hport⟩ := decodeAddr_of_romSize_le h
  · rw [memWrite_of_ram s v hram]
  · rw [memWrite_of_port s v hport, writePort_run]

/-- The host is told of a fault exactly where the gate rejects its write (R198). -/
theorem busWriteReply_eq_ite (c : Config) (a : Word) :
    busWriteReply c a = if a.toNat < c.romSize.val then .fault (.protectionViolation a) else .nothing := by
  split_ifs with hrom
  · rw [busWriteReply, decodeAddr_rom c hrom]
  · obtain hram | ⟨p, hport⟩ := decodeAddr_of_romSize_le (Nat.le_of_not_lt hrom)
    · rw [busWriteReply, hram]
    · rw [busWriteReply, hport]

/-- Settles O55. -/
theorem busWriteAnswersAFaultExactlyForRom : Obligations.BusWriteAnswersAFaultExactlyForRom := by
  unfold Obligations.BusWriteAnswersAFaultExactlyForRom
  intro c s a v
  refine ⟨?_, fun hr hrom => ?_, memWrite_run_of_romSize_le s v⟩
  · rw [hostStep, busWriteReply_eq_ite, busWrite]
  · rw [memWrite_below_romSize s v hrom, State.raise_of_running hr]

/-! ### Host operations that read -/

/-- Settles O38: `hostStep` answers a read with the state it was given. -/
theorem hostReadsChangeNothing : Obligations.HostReadsChangeNothing := by
  unfold Obligations.HostReadsChangeNothing
  intro c s
  exact ⟨fun _ => rfl, fun _ => rfl, rfl⟩

/-! ### A halted machine -/

theorem writePort_frame (s : State) (p : Port) (v : Word) :
    (writePort s p v).x = s.x ∧ (writePort s p v).pc = s.pc ∧ (writePort s p v).timer = s.timer ∧
      (writePort s p v).vb = s.vb ∧ (writePort s p v).disk = s.disk ∧ (writePort s p v).store = s.store := by
  cases p <;> exact ⟨rfl, rfl, rfl, rfl, rfl, rfl⟩

/-- The runtime write path reaches memory, the ports and the run state, and nothing else (R58). -/
theorem memWrite_frame (c : Config) (s : State) (a v : Word) :
    (memWrite c s a v).x = s.x ∧ (memWrite c s a v).pc = s.pc ∧ (memWrite c s a v).timer = s.timer ∧
      (memWrite c s a v).vb = s.vb ∧ (memWrite c s a v).disk = s.disk ∧ (memWrite c s a v).store = s.store := by
  cases hd : decodeAddr c a with
  | rom =>
    rw [memWrite_of_rom s v hd]
    exact ⟨State.raise_x s _, State.raise_pc s _, State.raise_timer s _, State.raise_vb s _, State.raise_disk s _,
      State.raise_store s _⟩
  | ram => rw [memWrite_of_ram s v hd]; exact ⟨rfl, rfl, rfl, rfl, rfl, rfl⟩
  | port p => rw [memWrite_of_port s v hd]; exact writePort_frame s p v

/-- A write to a halted machine keeps the first cause, the gate's own fault included (R172). -/
theorem memWrite_run_of_halted (c : Config) {s : State} {cause : HaltCause} (hr : s.run = .halted cause) (a v : Word) :
    (memWrite c s a v).run = .halted cause := by
  by_cases hrom : a.toNat < c.romSize.val
  · rw [memWrite_below_romSize s v hrom, State.raise_of_halted hr, hr]
  · rw [memWrite_run_of_romSize_le s v (Nat.le_of_not_lt hrom), hr]

/-- Everything a host operation other than construction can do to a halted machine: a write, or nothing (R199). -/
theorem hostStep_cases_of_halted {c : Config} {op : HostOp} {s t : State} {r : Reply} {cause : HaltCause}
    (hconstruct : ∀ m d l, op ≠ .construct m d l) (hr : s.run = .halted cause) (h : hostStep c op s = .next (t, r)) :
    t = s ∨ ∃ a v, (op = .busWrite a v ∨ op = .keyEvent v) ∧ t = memWrite c s a v := by
  cases op with
  | construct m d l => exact absurd rfl (hconstruct m d l)
  | tick => rw [hostStep, tick_of_halted c hr] at h; cases h; exact .inl rfl
  | busWrite a v => cases h; exact .inr ⟨a, v, .inl rfl, rfl⟩
  | keyEvent v => cases h; exact .inr ⟨kbdPort, v, .inr rfl, rfl⟩
  | busRead | readVideo | observe => cases h; exact .inl rfl

/-- Settles O9: the writes keep the run state and the core, and every other operation does nothing. -/
theorem haltedIsTerminal : Obligations.HaltedIsTerminal := by
  unfold Obligations.HaltedIsTerminal
  intro c op s t r cause hconstruct hr h
  obtain rfl | ⟨a, v, hop, rfl⟩ := hostStep_cases_of_halted hconstruct hr h
  · exact ⟨hr, rfl, rfl, rfl, rfl, rfl, rfl, fun _ _ => rfl⟩
  · obtain ⟨hx, hpc, htimer, hvb, hdisk, hstore⟩ := memWrite_frame c s a v
    refine ⟨memWrite_run_of_halted c hr a v, hx, hpc, htimer, hvb, hdisk, hstore, fun hbus hkey => ?_⟩
    obtain hop | hop := hop
    · exact absurd hop (hbus a v)
    · exact absurd hop (hkey v)

/-! ### How a step can end the run -/

/-- Settles O17: a fetch overruns at the last address alone, and the `LOD` of this machine never faults, its switch being
off (D12). -/
theorem stepEndsOnlyByThreeCauses : Obligations.StepEndsOnlyByThreeCauses := by
  unfold Obligations.StepEndsOnlyByThreeCauses
  intro s t hr hstep
  obtain ⟨ds, ht⟩ := step_eq_next hstep
  by_cases hp : s.pc = lastAddr
  · obtain ⟨rfl, -⟩ := tick_overran ht hr hp
    exact .inr (.inr (.inr rfl))
  · obtain ⟨u, hu, rfl, -⟩ := tick_fetched ht hr hp
    rw [timerPhase_run]
    obtain ⟨hrun, -⟩ | ⟨-, rfl⟩ | ⟨w, -, rfl⟩ | ⟨hswitch, -⟩ :=
      execUnder_run_cases ((fetchedState_run config s).trans hr) hu
    · exact .inl hrun
    · exact .inr (.inl rfl)
    · exact .inr (.inr (.inl ⟨w, rfl⟩))
    · cases hswitch

end Sys2Proof
end

section
/-! The interrupt service, the timer and the key event (60_exceptions.md R180 to R187, R200). -/

namespace Sys2Proof

open Sys2Proof.Machine

/-! ### The interrupt service -/

/-- The service of a pending key (R183). -/
theorem interruptService_of_key (c : Config) {s : State} {v : Word} (h : s.kbd = some v) :
    interruptService c s =
      { s with vb := Cells.write s.vb (c.kbdCell s).val v, kbd := none, iflag := false } := by
  rw [interruptService, serviceKeyboard, h]
  rfl

theorem serviceKeyboard_of_empty (c : Config) {s : State} (h : s.kbd = none) : serviceKeyboard c s = s := by
  rw [serviceKeyboard, h]

/-- The service without a key (R182). -/
theorem interruptService_of_empty (c : Config) {s : State} (h : s.kbd = none) :
    interruptService c s = { s with iflag := false } := by
  rw [interruptService, serviceKeyboard_of_empty c h, State.clearIflag]

theorem interruptPhase_of_set (c : Config) {s : State} (h : s.iflag = true) : interruptPhase c s = interruptService c s :=
  if_pos h

/-- Settles O39: the service is one write of the Video Buffer, and an empty latch reads as zero. -/
theorem interruptServiceIsAFixedAction : Obligations.InterruptServiceIsAFixedAction := by
  unfold Obligations.InterruptServiceIsAFixedAction
  intro c s
  refine ⟨fun v hkey => ?_, interruptService_of_empty c⟩
  rw [interruptService_of_key c hkey]
  exact ⟨rfl, Cells.read_write_self _ _ _, fun _ hk => Cells.read_write_ne _ _ hk, memRead_kbdPort_of_empty rfl⟩

/-- Settles O40. -/
theorem interruptServiceClearsTheFlag : Obligations.InterruptServiceClearsTheFlag := by
  unfold Obligations.InterruptServiceClearsTheFlag
  intro c s
  exact ⟨State.clearIflag_iflag _, interruptService_of_empty c, interruptPhase_of_set c, interruptPhase_of_clear c⟩

/-! ### The timer -/

/-- The count that reaches the threshold (R186). -/
theorem timerAdvance_of_last {s : State} (h : s.timer = 7999#16) :
    timerAdvance s = { s with timer := 0#16, iflag := true } := by
  have hreached : s.timer + 1#16 = timerThreshold := by rw [h]; rfl
  rw [timerAdvance, if_pos hreached, State.raiseIflag]

/-- Any other count, also one that wraps around. -/
theorem timerAdvance_of_not_last {s : State} (h : s.timer ≠ 7999#16) :
    timerAdvance s = { s with timer := s.timer + 1#16 } := by
  have hbelow : s.timer + 1#16 ≠ timerThreshold := by bv_omega
  rw [timerAdvance, if_neg hbelow]

/-- Settles O41: below 8000 the timer counts modulo 8000. -/
theorem timerAdvanceAtTheThreshold : Obligations.TimerAdvanceAtTheThreshold := by
  unfold Obligations.TimerAdvanceAtTheThreshold
  intro s
  refine ⟨timerAdvance_of_last, timerAdvance_of_not_last, fun hlt => ?_⟩
  rw [timerAdvance_timer hlt]
  exact Nat.mod_lt _ (by decide)

/-! ### The key event -/

/-- A key event sets the latch and the flag (R61, R200). -/
theorem keyEvent_eq (c : Config) (s : State) (v : Word) : keyEvent c s v = { s with kbd := some v, iflag := true } :=
  memWrite_of_port s v (decodeAddr_port c portAt_kbd)

/-- A cycle of a running machine serves a latched key whose flag is set: phase 1 writes it to its cell, and no later phase
touches the Video Buffer or the latch. -/
theorem tick_serves_key (c : Config) {s : State} {v : Word} (hr : s.run = .running) (hkey : s.kbd = some v)
    (hflag : s.iflag = true) :
    ∃ t ds, tick c s = .next (t, ds) ∧ t.vb = Cells.write s.vb (c.kbdCell s).val v ∧ t.kbd = none := by
  obtain ⟨t, ds, ht⟩ := tick_next c s
  obtain ⟨-, hkbd, -, -, -, hvb, -, -⟩ := tick_frame ht hr
  refine ⟨t, ds, ht, ?_, hkbd.trans (beforeFetch_kbd c fun _ => hflag)⟩
  rw [hvb, beforeFetch_vb, interruptPhase_of_set c hflag, interruptService_of_key c hkey]

/-- Settles O42: the next cycle finds the key latched and its flag set. -/
theorem keyEventIsDisplayedByTheNextCycle : Obligations.KeyEventIsDisplayedByTheNextCycle := by
  unfold Obligations.KeyEventIsDisplayedByTheNextCycle
  intro c s v
  refine ⟨keyEvent_eq c s v, fun w => by simp only [keyEvent_eq], fun hr => ?_⟩
  rw [keyEvent_eq]
  obtain ⟨t, ds, ht, hvb, hkbd⟩ := tick_serves_key c (s := { s with kbd := some v, iflag := true }) hr rfl rfl
  exact ⟨t, ds, ht, by rw [hvb, Cells.read_write_self], hkbd⟩

end Sys2Proof
end
